-- ==== Sys2Proof/Word.lean ====
section
/-! DEFINITION. The word types of CONV2D: host-port data and address, bytes, the 4-bit kernel fields, 16-bit weights. -/

namespace Sys2Proof

/-- An 8-bit image sample, array byte or command field (R4 `SAMPLE_BITS`, `FID_BITS`). -/
abbrev Byte := BitVec 8

/-- A 32-bit register or host-port data word (R4 `HDATA_BITS`). -/
abbrev Word := BitVec 32

/-- An 18-bit host-port byte address (R4 `HADDR_BITS`). -/
abbrev Addr := BitVec 18

/-- A 4-bit kernel dimension or anchor field (R4 `KDIM_BITS`). -/
abbrev Nibble := BitVec 4

/-- A raw 16-bit two's-complement weight, of value `raw / 256` (R4 `WEIGHT_BITS`, `FRAC_BITS`). -/
abbrev Weight := BitVec 16

end Sys2Proof
end

