-- ==== Sys2Proof/Syntax.lean ====
section
/-! DEFINITION. The syntax: the nine commands of the opcode table (R74), the host-port transactions that carry them (R40),
the events that move the machine (R8), and the lines of host-program notation (R80, R81). -/

namespace Sys2Proof

/-- The border policies, a closed set of four (R75, R13 `BORDER`). -/
inductive Border where
  | reflect
  | replicate
  | wrap
  | constant
  deriving DecidableEq, Repr

/-- The nine commands of command set version 1 (R74, R78). Every command with `GO = 1` carries its FILL and FID fields:
a field the command does not use is a don't-care for the result but is stored in the CMD latch (R77). -/
inductive Instr where
  /-- `NOP`, R114: every other bit is ignored. -/
  | nop
  /-- `CONV.RFL`, R110. -/
  | convRfl (fill fid : Byte)
  /-- `FILT.RFL`, R150. -/
  | filtRfl (fill fid : Byte)
  /-- `CONV.REP`, R111. -/
  | convRep (fill fid : Byte)
  /-- `FILT.REP`, R151. -/
  | filtRep (fill fid : Byte)
  /-- `CONV.WRP`, R112. -/
  | convWrp (fill fid : Byte)
  /-- `FILT.WRP`, R152. -/
  | filtWrp (fill fid : Byte)
  /-- `CONV.CST`, R113. -/
  | convCst (fill fid : Byte)
  /-- `FILT.CST`, R153. -/
  | filtCst (fill fid : Byte)
  deriving DecidableEq, Repr

/-- A request on the host port (R40): direction, byte address, size code (0, 1, 2 for 1, 2, 4 bytes; 3 is not legal)
and right-justified write data. -/
structure Transaction where
  write : Bool
  addr : Addr
  size : BitVec 2
  wdata : Word
  deriving DecidableEq, Repr

/-- What moves the machine (R8): one host transaction, the host's polling loop (R80 `POLL`), one engine step, a reset,
or a power-on, which is a reset that also leaves the arrays with new unspecified bytes (R190). -/
inductive Event where
  | host (t : Transaction)
  | poll (addr : Addr) (mask value : Word)
  | engine
  | reset
  | powerOn
  deriving DecidableEq, Repr

/-- A line of a host program: the notation of R80 and the pseudo-instructions of R81, with their operands as the program
text writes them. -/
inductive HostLine where
  | wr32 (addr v : Nat)
  | wr16 (addr v : Nat)
  | wr8 (addr v : Nat)
  | rd32 (addr : Nat)
  | rd16 (addr : Nat)
  | rd8 (addr : Nat)
  | poll (addr mask value : Nat)
  | setimg (w h : Nat)
  | setk (kw kh : Nat)
  | seta (ax ay : Nat)
  | ldw (k : Nat) (raw : Int)
  | ldpix (a v : Nat)
  | rdpix (a : Nat)
  | conv (b : Border)
  | convCst (fill : Nat)
  | filt (b : Border) (fid : Nat)
  | filtCst (fid fill : Nat)
  | nop
  | wait
  | ack
  | irqen (e : Nat)
  deriving DecidableEq, Repr

end Sys2Proof
end

