-- ==== Sys2Proof/WellFormed.lean ====
section
/-! DEFINITION. Well-formed instructions, transactions and host-program lines. -/

namespace Sys2Proof

/-- Every command is well-formed: its fields have exactly the widths of format `C` (R70), and there is no illegal command
encoding (R76). -/
def Instr.wf : Instr → Bool
  | .nop => true
  | .convRfl _ _ => true
  | .filtRfl _ _ => true
  | .convRep _ _ => true
  | .filtRep _ _ => true
  | .convWrp _ _ => true
  | .filtWrp _ _ => true
  | .convCst _ _ => true
  | .filtCst _ _ => true

/-- A transaction names a legal size (R40): the size code 3 is not one. -/
def Transaction.wf (t : Transaction) : Bool := t.size != 3#2

/-- The operand ranges of the host-program notation: 18-bit addresses and data of the access's width (R80), and the ranges
each pseudo-instruction of R81 gives. -/
def HostLine.wf : HostLine → Bool
  | .wr32 addr v => addr < 2 ^ 18 && v < 2 ^ 32
  | .wr16 addr v => addr < 2 ^ 18 && v < 2 ^ 16
  | .wr8 addr v => addr < 2 ^ 18 && v < 2 ^ 8
  | .rd32 addr => addr < 2 ^ 18
  | .rd16 addr => addr < 2 ^ 18
  | .rd8 addr => addr < 2 ^ 18
  | .poll addr mask value => addr < 2 ^ 18 && mask < 2 ^ 32 && value < 2 ^ 32
  | .setimg w h => 1 ≤ w && w ≤ 256 && 1 ≤ h && h ≤ 256
  | .setk kw kh => kw ≤ 15 && kh ≤ 15
  | .seta ax ay => ax ≤ 15 && ay ≤ 15
  | .ldw k raw => k ≤ 255 && -32768 ≤ raw && raw ≤ 32767
  | .ldpix a v => a ≤ 65535 && v ≤ 255
  | .rdpix a => a ≤ 65535
  | .conv _ => true
  | .convCst fill => fill ≤ 255
  | .filt _ fid => fid ≤ 255
  | .filtCst fid fill => fid ≤ 255 && fill ≤ 255
  | .nop => true
  | .wait => true
  | .ack => true
  | .irqen e => e ≤ 1

end Sys2Proof
end

