-- ==== Sys2Proof/Decode.lean ====
section
/-! DEFINITION. The command decoder and encoder: format `C` of R70, the opcode map of R74. -/

namespace Sys2Proof

/-- The 2-bit BORDER code of a policy (R13, R75). -/
def Border.code : Border → BitVec 2
  | .reflect => 0#2
  | .replicate => 1#2
  | .wrap => 2#2
  | .constant => 3#2

/-- The policy of a BORDER code; all four codes are defined (R72). -/
def Border.ofCode (c : BitVec 2) : Border :=
  if c = 0#2 then .reflect
  else if c = 1#2 then .replicate
  else if c = 2#2 then .wrap
  else .constant

/-- GO, bit 0 of a command word (R70). -/
def goField (w : Word) : Bool := w.getLsbD 0

/-- SEL, bit 1 (R70): 0 `CONV`, 1 `FILT`. -/
def selField (w : Word) : Bool := w.getLsbD 1

/-- BORDER, bits 3:2 (R70). -/
def borderField (w : Word) : BitVec 2 := w.extractLsb' 2 2

/-- FILL, bits 15:8 (R70). -/
def fillField (w : Word) : Byte := w.extractLsb' 8 8

/-- FID, bits 23:16 (R70). -/
def fidField (w : Word) : Byte := w.extractLsb' 16 8

/-- The command a CMD word is. Every 32-bit word is one of the nine (R74, R76); bits 7:4 and 31:24 are ignored (R76). -/
def decodeWord (w : Word) : Instr :=
  match goField w, selField w, Border.ofCode (borderField w) with
  | false, _, _ => .nop
  | true, false, .reflect => .convRfl (fillField w) (fidField w)
  | true, true, .reflect => .filtRfl (fillField w) (fidField w)
  | true, false, .replicate => .convRep (fillField w) (fidField w)
  | true, true, .replicate => .filtRep (fillField w) (fidField w)
  | true, false, .wrap => .convWrp (fillField w) (fidField w)
  | true, true, .wrap => .filtWrp (fillField w) (fidField w)
  | true, false, .constant => .convCst (fillField w) (fidField w)
  | true, true, .constant => .filtCst (fillField w) (fidField w)

/-- Why a sequence of bytes is no command. -/
inductive DecodeError where
  /-- Fewer than four bytes: a command is one 32-bit word (R70, R79), and a shorter access to CMD is no command (R46). -/
  | shortCommand
  deriving DecidableEq, Repr

/-- The word whose bytes, lowest address first, are `b0 b1 b2 b3` (R42). -/
def wordOfBytes (b0 b1 b2 b3 : Byte) : Word := b3 ++ b2 ++ b1 ++ b0

/-- The four bytes of a word, lowest address first (R42). -/
def bytesOfWord (w : Word) : List Byte :=
  [w.extractLsb' 0 8, w.extractLsb' 8 8, w.extractLsb' 16 8, w.extractLsb' 24 8]

/-- Decode a command from bytes laid out little-endian, with the bytes that follow it; total, rejecting by name. -/
def decode : List Byte → Except DecodeError (Instr × List Byte)
  | b0 :: b1 :: b2 :: b3 :: rest => .ok (decodeWord (wordOfBytes b0 b1 b2 b3), rest)
  | _ => .error .shortCommand

/-- A command word of format `C` with GO = 1, from its fields; reserved bits are written as 0 (R70, R76). -/
def formatC (sel : Bool) (border : Border) (fill fid : Byte) : Word :=
  0#8 ++ fid ++ fill ++ 0#4 ++ border.code ++ BitVec.ofBool sel ++ 1#1

/-- The CMD word of a command (R74, R81); `NOP` is the word 0 (R81). -/
def encodeWord : Instr → Word
  | .nop => 0#32
  | .convRfl fill fid => formatC false .reflect fill fid
  | .filtRfl fill fid => formatC true .reflect fill fid
  | .convRep fill fid => formatC false .replicate fill fid
  | .filtRep fill fid => formatC true .replicate fill fid
  | .convWrp fill fid => formatC false .wrap fill fid
  | .filtWrp fill fid => formatC true .wrap fill fid
  | .convCst fill fid => formatC false .constant fill fid
  | .filtCst fill fid => formatC true .constant fill fid

/-- The bytes of a command, lowest address first. -/
def encode (i : Instr) : List Byte := bytesOfWord (encodeWord i)

/-- The mnemonic of a command, as the opcode table spells it (R74). -/
def Instr.mnemonic : Instr → String
  | .nop => "NOP"
  | .convRfl _ _ => "CONV.RFL"
  | .filtRfl _ _ => "FILT.RFL"
  | .convRep _ _ => "CONV.REP"
  | .filtRep _ _ => "FILT.REP"
  | .convWrp _ _ => "CONV.WRP"
  | .filtWrp _ _ => "FILT.WRP"
  | .convCst _ _ => "CONV.CST"
  | .filtCst _ _ => "FILT.CST"

/-- A row of the opcode map of R74: the bits `mask` selects decide the row, `value` is their value. -/
structure OpcodeRow where
  mnemonic : String
  value : Word
  mask : Word
  deriving DecidableEq, Repr

/-- A word is of a row when `v & mask = match` (R74). -/
def OpcodeRow.matchesWord (r : OpcodeRow) (v : Word) : Bool := v &&& r.mask == r.value

/-- The opcode map of R74, row by row. -/
def opcodeTable : List OpcodeRow :=
  [ ⟨"NOP", 0x00000000#32, 0x00000001#32⟩,
    ⟨"CONV.RFL", 0x00000001#32, 0x0000000F#32⟩,
    ⟨"FILT.RFL", 0x00000003#32, 0x0000000F#32⟩,
    ⟨"CONV.REP", 0x00000005#32, 0x0000000F#32⟩,
    ⟨"FILT.REP", 0x00000007#32, 0x0000000F#32⟩,
    ⟨"CONV.WRP", 0x00000009#32, 0x0000000F#32⟩,
    ⟨"FILT.WRP", 0x0000000B#32, 0x0000000F#32⟩,
    ⟨"CONV.CST", 0x0000000D#32, 0x0000000F#32⟩,
    ⟨"FILT.CST", 0x0000000F#32, 0x0000000F#32⟩ ]

/-- The 32-bit command word whose low `nbits` bits are those of `w`, every bit above them 0. -/
def tableWord (nbits w : Nat) : Word := BitVec.ofNat 32 (w % 2 ^ nbits)

/-- What the decoder reads from an instruction whose bits are `w`, numbered as the opcode table numbers them. -/
def decodeTableWord (nbits w : Nat) : Option Instr :=
  match decode (bytesOfWord (tableWord nbits w)) with
  | .ok (i, _) => some i
  | .error _ => none

end Sys2Proof
end

