-- ==== Sys2Proof/Machine/Arith.lean ====
section
/-! DEFINITION. The integer primitives of R5, finite sums, and the little-endian byte helpers of R42. -/

namespace Sys2Proof.Machine

/-- `floor_div(a, n)` of R5, for `n > 0`: Lean's `Int` division by a positive number rounds toward minus infinity. -/
def floorDiv (a n : Int) : Int := a / n

/-- `a mod n` of R5, for `n > 0`: the floored modulo, always in `0 .. n-1`. -/
def floorMod (a n : Int) : Int := a - n * floorDiv a n

/-- `clampi(a, lo, hi)` of R5, for `lo ≤ hi`. -/
def clampi (a lo hi : Int) : Int :=
  if a < lo then lo else if hi < a then hi else a

/-- `sat8(a)` of R5: the saturating clamp into 0..255. -/
def sat8 (a : Int) : Int := clampi a 0 255

/-- The exact sum of `f 0`, …, `f (n-1)` (the sums of R99; order is immaterial, R99). -/
def sumBelow : Nat → (Nat → Int) → Int
  | 0, _ => 0
  | n + 1, f => sumBelow n f + f n

/-- The little-endian value of the `n` bytes `f 0`, …, `f (n-1)`: `le` of R44. -/
def leValue : Nat → (Nat → Byte) → Nat
  | 0, _ => 0
  | n + 1, f => (f 0).toNat + 256 * leValue n (fun k => f (k + 1))

/-- Byte `k` of a data word, `v[8k+7 : 8k]` (R45). -/
def byteOf (v : Word) (k : Nat) : Byte := v.extractLsb' (8 * k) 8

/-- The weight two KRAM bytes hold, low byte first, before it is read as a signed number (R20). -/
def weightOf (lo hi : Byte) : Weight := hi ++ lo

end Sys2Proof.Machine
end

