-- ==== Sys2Proof/Config.lean ====
section
/-! DEFINITION. What is fixed for the machine: the parameters of R4, the free values the spec leaves open
(U1 to U4 of spec/93_implementation_defined.md), the kernel registry `KROM` built from them (R141), and
the reference registry `KROM_REF` (R143), which only tests and statements that name it use. -/

namespace Sys2Proof

/-- The constant the `ID` register reads as (R12, R4 `ID_VALUE`). -/
def Config.idValue : Word := 0x43324401#32

/-- Size of KRAM in bytes (R4 `KRAM_BYTES`). -/
def Config.kramBytes : Nat := 512

/-- Size of SRCMEM and of DSTMEM in bytes (R4 `PIXMEM_BYTES`). -/
def Config.pixmemBytes : Nat := 65536

/-- Number of registered filters, identifiers `0 .. 7` (R4 `NFILT`). -/
def Config.nfilt : Nat := 8

/-- The three byte arrays of R10. -/
inductive ArrayName where
  | kram
  | srcmem
  | dstmem
  deriving DecidableEq, Repr

/-- FREE VALUE (U3, U4; log 5, log 6): byte `addr` of an array, as draw number `draw` left it: draw 0 is power-on, and
every later power-on, and every reset that cuts a run, draws anew the bytes it makes unspecified. A byte that is fixed
once drawn reads the same until something writes it or draws it again. -/
opaque Config.freeByte (array : ArrayName) (draw addr : Nat) : Byte

/-- FREE VALUE (U2; log 7): the data of the `n`-th host read of DSTMEM made while `STATUS.BUSY = 1`. -/
opaque Config.freeRead (n : Nat) : Word

/-- FREE VALUE (U1; log 8): a draw of the raw weight of column `i`, row `j` of registered filter `fid`.
`Config.krom` makes a well-formed registry of it. -/
opaque Config.kromWeight (fid i j : Nat) : Weight

/-- A kernel descriptor: an entry of `KROM` (R23, R141), and also what a `CONV` command assembles from KDIM, ANCHOR and
KRAM (R92). `raw i j` is the raw weight of column `i`, row `j`. It is no part of State. -/
structure KernelEntry where
  kw : Nibble
  kh : Nibble
  ax : Nibble
  ay : Nibble
  raw : Nat → Nat → Weight

/-- The type of a registry: a partial function from the 256 filter identifiers to entries (R141). -/
abbrev Krom := Byte → Option KernelEntry

/-- The sum of an entry's raw weights, each read as a signed number (R141 item 3, R148). -/
def KernelEntry.rawSum (e : KernelEntry) : Int :=
  Machine.sumBelow e.kh.toNat fun j => Machine.sumBelow e.kw.toNat fun i => (e.raw i j).toInt

/-- The predicate `wf(KROM)` of R141. -/
structure Krom.wf (k : Krom) : Prop where
  /-- Item 1: exactly the identifiers `0 .. 7` are registered. -/
  registered : ∀ f, (k f).isSome = decide (f.toNat < Config.nfilt)
  /-- Item 2: every entry is 3 x 3 with its anchor at the centre. -/
  shape : ∀ f e, k f = some e → e.kw = 3#4 ∧ e.kh = 3#4 ∧ e.ax = 1#4 ∧ e.ay = 1#4
  /-- Item 3: the raw weights of the 8-neighbour Laplacian sum to 0. -/
  zeroSum : ∀ e, k 1#8 = some e → e.rawSum = 0

/-- The 3 x 3 entry with canonical anchor (1, 1) that a table of raw weights gives (R141 item 2). -/
def KernelEntry.canonical (raw : Nat → Nat → Weight) : KernelEntry :=
  { kw := 3#4, kh := 3#4, ax := 1#4, ay := 1#4, raw := raw }

/-- The registry of this hardware: an open parameter of the spec constrained by `wf(KROM)` (R140, R141; log 8).
The weights are the free draw; where the draw gives entry 1 weights that do not sum to 0 (which R141 item 3 forbids),
entry 1 has zero weights. So the registry is always well-formed, and every well-formed registry is one of the draws. -/
def Config.krom : Krom := fun f =>
  if f.toNat < Config.nfilt then
    some (KernelEntry.canonical fun i j =>
      if f = 1#8 ∧ (KernelEntry.canonical (Config.kromWeight 1)).rawSum ≠ 0 then 0#16
      else Config.kromWeight f.toNat i j)
  else none

/-- The raw weights of `KROM_REF` (R143), row by row, one list per identifier. -/
def Config.kromRefTable : List (List Int) :=
  [ [0, -256, 0, -256, 1024, -256, 0, -256, 0],
    [-256, -256, -256, -256, 2048, -256, -256, -256, -256],
    [0, -256, 0, -256, 1280, -256, 0, -256, 0],
    [-256, -256, -256, -256, 2304, -256, -256, -256, -256],
    [-256, -512, -256, -512, 3328, -512, -256, -512, -256],
    [-256, 0, 256, -512, 0, 512, -256, 0, 256],
    [-256, -512, -256, 0, 0, 0, 256, 512, 256],
    [-16, -32, -16, -32, 192, -32, -16, -32, -16] ]

/-- `KROM_REF` (R143): a reference registry for tests and for statements that name it. PRESUMED (log 16): the spec
itself takes it from general knowledge and no rule depends on it; no step of the model uses it. -/
def Config.kromRef : Krom := fun f =>
  match Config.kromRefTable[f.toNat]? with
  | some row => some (KernelEntry.canonical fun i j => BitVec.ofInt 16 (row.getD (3 * j + i) 0))
  | none => none

end Sys2Proof
end

