-- ==== Sys2Proof/Machine/Memory.lean ====
section
/-! DEFINITION. One byte array of the block (R20 to R22) as plain data: the bytes that something has written, in canonical
form, and which prefixes of the array have become unspecified anew since power-on (R30, U3, U4). -/

namespace Sys2Proof.Machine

/-- A byte array. `cells` lists the bytes something has written since they were last drawn, addresses strictly rising.
An unlisted byte holds its free value (log 5). `redraws` is the model's own: the lengths of the prefixes that a power-on or
a reset that cut a run made unspecified anew, latest first (log 6). -/
structure Memory where
  cells : List Host.Cell
  redraws : List Nat
  deriving DecidableEq, Repr

/-- An array as power-on leaves it: no byte written, none drawn again. -/
def Memory.empty : Memory := { cells := [], redraws := [] }

/-- The byte listed at an address, if one is. -/
def lookupCell : List Host.Cell → Nat → Option Byte
  | [], _ => none
  | (k, v) :: rest, a => if k = a then some v else lookupCell rest a

/-- List a byte at an address, keeping the addresses rising. -/
def setCell : List Host.Cell → Nat → Byte → List Host.Cell
  | [], a, b => [(a, b)]
  | (k, v) :: rest, a, b =>
    if a < k then (a, b) :: (k, v) :: rest
    else if a = k then (a, b) :: rest
    else (k, v) :: setCell rest a b

/-- Unlist every byte below `n`. -/
def dropBelow (n : Nat) (cells : List Host.Cell) : List Host.Cell := cells.filter fun c => decide (n ≤ c.1)

/-- The number of the draw that an unlisted byte's value comes from: that of the latest redraw whose prefix holds the
address, and 0, power-on, where none does. -/
def drawOf : List Nat → Nat → Nat
  | [], _ => 0
  | n :: earlier, a => if a < n then earlier.length + 1 else drawOf earlier a

/-- What an unlisted address reads as: its free value, fixed once drawn (U3, U4; log 5). -/
def Memory.unlisted (name : ArrayName) (m : Memory) (a : Nat) : Byte :=
  Config.freeByte name (drawOf m.redraws a) a

/-- The byte of an array at an address. -/
def Memory.byteAt (name : ArrayName) (m : Memory) (a : Nat) : Byte :=
  (lookupCell m.cells a).getD (m.unlisted name a)

/-- Write one byte. -/
def Memory.setByte (m : Memory) (a : Nat) (b : Byte) : Memory := { m with cells := setCell m.cells a b }

/-- Write the low `n` bytes of a data word from an address on, little-endian (R42, R45). -/
def Memory.setBytes (m : Memory) (a : Nat) (v : Word) : Nat → Memory
  | 0 => m
  | n + 1 => (Memory.setBytes m a v n).setByte (a + n) (byteOf v n)

/-- Make the bytes below `n` unspecified anew (R30, U4; log 6). -/
def Memory.redraw (m : Memory) (n : Nat) : Memory :=
  { cells := dropBelow n m.cells, redraws := n :: m.redraws }

/-- The little-endian value of `n` bytes from an address on: `le` of R44, zero-extended to 32 bits. -/
def Memory.le (name : ArrayName) (m : Memory) (a n : Nat) : Word :=
  BitVec.ofNat 32 (leValue n fun k => m.byteAt name (a + k))

/-- The canonical form: listed addresses strictly rising, each inside an array of `size` bytes. (No listed byte equals
what its address reads as when unlisted in a way the model can tell: an unlisted byte's value is free, log 5.) -/
abbrev Memory.wf (size : Nat) (m : Memory) : Prop :=
  m.cells.Pairwise (fun c d => c.1 < d.1) ∧ ∀ c ∈ m.cells, c.1 < size

end Sys2Proof.Machine
end

