-- ==== Sys2Proof/Machine/State.lean ====
section
/-! DEFINITION. The state of one CONV2D block (R10) as plain data, the model's own fields beside it, the reasons a step can
stop, and the state after reset (R30). -/

namespace Sys2Proof.Machine

/-- The CMD latch (R13). -/
structure CmdLatch where
  /-- SEL: false `CONV`, true `FILT`. -/
  sel : Bool
  /-- BORDER. -/
  border : Border
  /-- FILL. -/
  fill : Byte
  /-- FID. -/
  fid : Byte
  deriving DecidableEq, Repr

/-- STATUS (R14). -/
structure Status where
  /-- BUSY: the whole of the engine's control state (R26). -/
  busy : Bool
  /-- DONE. -/
  done : Bool
  /-- ERR. -/
  err : Bool
  /-- ERRCODE. -/
  errcode : BitVec 3
  deriving DecidableEq, Repr

/-- CTRL (R15). -/
structure Ctrl where
  /-- IE, the interrupt enable. -/
  ie : Bool
  deriving DecidableEq, Repr

/-- IMGDIM (R16): the dimensions minus one. -/
structure ImgDim where
  /-- WM1. -/
  wm1 : Byte
  /-- HM1. -/
  hm1 : Byte
  deriving DecidableEq, Repr

/-- KDIM (R17): the kernel dimensions, held directly. -/
structure KDim where
  /-- KW. -/
  kw : Nibble
  /-- KH. -/
  kh : Nibble
  deriving DecidableEq, Repr

/-- ANCHOR (R18). -/
structure Anchor where
  /-- AX. -/
  ax : Nibble
  /-- AY. -/
  ay : Nibble
  deriving DecidableEq, Repr

/-- The response signal of a host-port transaction (R40 `resp`). -/
inductive Resp where
  | okay
  | error
  deriving DecidableEq, Repr

/-- The response to a host-port transaction (R40): `resp` and the right-justified read data, 0 on a write and on ERROR. -/
structure Response where
  resp : Resp
  rdata : Word
  deriving DecidableEq, Repr

/-- The state of the block (R10) and the model's own fields. -/
structure State where
  /-- `CMD` latch (R13). -/
  cmd : CmdLatch
  /-- `STATUS` (R14). -/
  status : Status
  /-- `CTRL` (R15). -/
  ctrl : Ctrl
  /-- `IMGDIM` (R16). -/
  imgdim : ImgDim
  /-- `KDIM` (R17). -/
  kdim : KDim
  /-- `ANCHOR` (R18). -/
  anchor : Anchor
  /-- `KRAM`, 512 bytes (R20). -/
  kram : Memory
  /-- `SRCMEM`, 65536 bytes (R21). -/
  srcmem : Memory
  /-- `DSTMEM`, 65536 bytes (R22). -/
  dstmem : Memory
  /-- Scan position, column (R27). -/
  ox : Byte
  /-- Scan position, row (R27). -/
  oy : Byte
  /-- The model's own (log 1): what moves the machine next, in order. -/
  agenda : List Event
  /-- The model's own (log 4): the response to the latest host transaction. -/
  resp : Option Response
  /-- The model's own (log 7): how many reads of DSTMEM while BUSY have been answered. -/
  draws : Nat
  deriving DecidableEq, Repr

/-- Why the machine stops. The hardware has no stuck state (R172), and no run of the model meets this fault. -/
inductive Fault where
  /-- Raised by the engine step in a state with BUSY = 1 whose latch names a filter the registry does not hold. No command
  is accepted so (R145), so no run reaches such a state. SAFE (log 11). -/
  | engineNoKernel
  deriving DecidableEq, Repr

/-- Why an instruction has no meaning. -/
inductive Refusal where
  /-- Raised only by an arm of `exec` whose instruction has no meaning yet; no arm is such. SAFE. -/
  | notModelled (mnemonic : String)
  deriving DecidableEq, Repr

/-- The state after power-on reset (R30, R190): every register 0, the engine idle, the arrays' bytes unspecified (log 5).
The scan position is don't-care there: DESIGN CHOICE 0 (log 9). The agenda is empty: the block waits for the host (log 13). -/
def State.reset : State :=
  { cmd := { sel := false, border := .reflect, fill := 0#8, fid := 0#8 }
    status := { busy := false, done := false, err := false, errcode := 0#3 }
    ctrl := { ie := false }
    imgdim := { wm1 := 0#8, hm1 := 0#8 }
    kdim := { kw := 0#4, kh := 0#4 }
    anchor := { ax := 0#4, ay := 0#4 }
    kram := .empty
    srcmem := .empty
    dstmem := .empty
    ox := 0#8
    oy := 0#8
    agenda := []
    resp := none
    draws := 0 }

end Sys2Proof.Machine
end

