-- ==== Sys2Proof/Machine/Flags.lean ====
section
/-! DEFINITION. The status flags (R14, R24), the errors and their codes (R160), write-one-to-clear (R14), the `irq` line
(R25), and the words the registers read as (R11 to R18). -/

namespace Sys2Proof.Machine

/-- The three command errors (R160). -/
inductive CommandError where
  | invalidKernel
  | invalidAnchor
  | unknownFilter
  deriving DecidableEq, Repr

/-- The ERRCODE of an error (R160, R165). -/
def CommandError.code : CommandError → BitVec 3
  | .invalidKernel => 1#3
  | .invalidAnchor => 2#3
  | .unknownFilter => 3#3

/-- `STATUS.DONE <- 0;  STATUS.ERR <- 0;  STATUS.ERRCODE <- 0`, at the acceptance of a command (R91). -/
def Status.cleared (f : Status) : Status := { f with done := false, err := false, errcode := 0#3 }

/-- The flags of a command that failed (R165). -/
def Status.failed (f : Status) (e : CommandError) : Status := { f with err := true, errcode := e.code }

/-- The flags at the start of a run (R91, R96). -/
def Status.started (f : Status) : Status := { f with busy := true }

/-- The flags at the completion of a run (R100). -/
def Status.completed (f : Status) : Status := { f with busy := false, done := true }

/-- A host write of `v` to STATUS (R14): bit 1 clears DONE, bit 2 clears ERR and ERRCODE. -/
def Status.writeOneToClear (f : Status) (v : Word) : Status :=
  let f := if v.getLsbD 1 then { f with done := false } else f
  if v.getLsbD 2 then { f with err := false, errcode := 0#3 } else f

/-- The `irq` output (R25): a level, a function of state. -/
def State.irq (s : State) : Bool := s.ctrl.ie && (s.status.done || s.status.err)

/-- What STATUS reads as (R14): BUSY 0, DONE 1, ERR 2, ERRCODE 6:4, every other bit 0. -/
def Status.word (f : Status) : Word :=
  0#25 ++ f.errcode ++ 0#1 ++ BitVec.ofBool f.err ++ BitVec.ofBool f.done ++ BitVec.ofBool f.busy

/-- What CTRL reads as (R15). -/
def Ctrl.word (c : Ctrl) : Word := 0#31 ++ BitVec.ofBool c.ie

/-- What IMGDIM reads as (R16). -/
def ImgDim.word (d : ImgDim) : Word := 0#16 ++ d.hm1 ++ d.wm1

/-- What KDIM reads as (R17). -/
def KDim.word (d : KDim) : Word := 0#20 ++ d.kh ++ 0#4 ++ d.kw

/-- What ANCHOR reads as (R18). -/
def Anchor.word (a : Anchor) : Word := 0#20 ++ a.ay ++ 0#4 ++ a.ax

/-- CTRL as a host write of `v` leaves it (R45). -/
def Ctrl.ofWord (v : Word) : Ctrl := { ie := v.getLsbD 0 }

/-- IMGDIM as a host write of `v` leaves it (R45). -/
def ImgDim.ofWord (v : Word) : ImgDim := { wm1 := v.extractLsb' 0 8, hm1 := v.extractLsb' 8 8 }

/-- KDIM as a host write of `v` leaves it (R45). -/
def KDim.ofWord (v : Word) : KDim := { kw := v.extractLsb' 0 4, kh := v.extractLsb' 8 4 }

/-- ANCHOR as a host write of `v` leaves it (R45). -/
def Anchor.ofWord (v : Word) : Anchor := { ax := v.extractLsb' 0 4, ay := v.extractLsb' 8 4 }

end Sys2Proof.Machine
end

