-- ==== Sys2Proof/Machine/Operands.lean ====
section
/-! DEFINITION. Operand assembly (R72): image dimensions, source samples, weights, and the kernel descriptor of a command. -/

namespace Sys2Proof.Machine

/-- Image width `W = WM1 + 1` (R16). -/
def State.width (s : State) : Nat := s.imgdim.wm1.toNat + 1

/-- Image height `H = HM1 + 1` (R16). -/
def State.height (s : State) : Nat := s.imgdim.hm1.toNat + 1

/-- A byte array of the state, by name. -/
def State.array (s : State) : ArrayName → Memory
  | .kram => s.kram
  | .srcmem => s.srcmem
  | .dstmem => s.dstmem

/-- The byte a named array holds at an index: `KRAM[a]`, `SRCMEM[a]`, `DSTMEM[a]` of R6. -/
def State.byteAt (s : State) (name : ArrayName) (a : Nat) : Byte := (s.array name).byteAt name a

/-- Raw weight number `k` of KRAM, two bytes little-endian (R20). -/
def State.kramWeight (s : State) (k : Nat) : Weight :=
  weightOf (s.byteAt .kram (2 * k)) (s.byteAt .kram (2 * k + 1))

/-- The kernel descriptor of a `CONV` command (R92): KDIM, ANCHOR, and KRAM read in place with row pitch `kW` (R98). -/
def State.convKernel (s : State) : KernelEntry :=
  { kw := s.kdim.kw
    kh := s.kdim.kh
    ax := s.anchor.ax
    ay := s.anchor.ay
    raw := fun i j => s.kramWeight (j * s.kdim.kw.toNat + i) }

/-- The kernel descriptor that the CMD latch selects (R91): that of R92 for `CONV`, the registry's entry for `FILT` (R144),
absent where the registry holds none (R145). -/
def State.kernel (krom : Krom) (s : State) : Option KernelEntry :=
  if s.cmd.sel then krom s.cmd.fid else some s.convKernel

end Sys2Proof.Machine
end

