-- ==== Sys2Proof/Machine/Ops.lean ====
section
/-! DEFINITION. The named operations every command and transaction is built from: the port's response, raising an error
(R165, the block's trap entry) and acknowledging one (R169, its trap return), starting a run (R96), accepting a command
(R91), and submitting one through the BUSY lock (R50). -/

namespace Sys2Proof.Machine

/-- Record the response to a host transaction (R40; log 4). -/
def State.respond (s : State) (resp : Resp) (rdata : Word) : State := { s with resp := some ⟨resp, rdata⟩ }

/-- Replace what moves the machine next (log 1). -/
def State.withAgenda (s : State) (agenda : List Event) : State := { s with agenda := agenda }

/-- Store the CMD latch and clear the flags: the first two lines of `accept` (R91), done also for a command that fails. -/
def State.latch (s : State) (c : CmdLatch) : State := { s with cmd := c, status := s.status.cleared }

/-- `raise E` (R165): ERR and ERRCODE set, nothing saved, nothing else changed; the block stays idle. -/
def State.raise (s : State) (e : CommandError) : State := { s with status := s.status.failed e }

/-- Acknowledge (R169): a host write of `v` to STATUS clears the flags it names (R14). -/
def State.acknowledge (s : State) (v : Word) : State := { s with status := s.status.writeOneToClear v }

/-- Start a run (R96): BUSY set, scan position at (0, 0). -/
def State.startRun (s : State) : State := { s with status := s.status.started, ox := 0#8, oy := 0#8 }

/-- The `InvalidKernel` check (R93): a zero dimension, and nothing else about the kernel. -/
def kernelZeroSized (kd : KernelEntry) : Bool := kd.kw == 0#4 || kd.kh == 0#4

/-- The `InvalidAnchor` check (R94), made only on a kernel with cells. -/
def anchorOutside (kd : KernelEntry) : Bool := decide (kd.kw ≤ kd.ax) || decide (kd.kh ≤ kd.ay)

/-- Why a command whose latch is stored fails, if it does; the order is the priority of R166. -/
def State.checkCommand (krom : Krom) (s : State) : Option CommandError :=
  match s.kernel krom with
  | none => some .unknownFilter
  | some kd =>
    if kernelZeroSized kd then some .invalidKernel
    else if anchorOutside kd then some .invalidAnchor
    else none

/-- `accept` (R91), with the registry as an argument: all of it in one host step. -/
def accept (krom : Krom) (c : CmdLatch) (s : State) : State :=
  match (s.latch c).checkCommand krom with
  | some e => (s.latch c).raise e
  | none => (s.latch c).startRun

/-- A command with GO = 1 written to CMD, with the registry as an argument: dropped while BUSY = 1 (R45, R50), accepted
otherwise. -/
def submitTo (krom : Krom) (c : CmdLatch) (s : State) : State := if s.status.busy then s else accept krom c s

/-- A command with GO = 1 written to CMD of this hardware. -/
def submit (c : CmdLatch) (s : State) : Host.Outcome State Fault Refusal := .next (submitTo Config.krom c s)

end Sys2Proof.Machine
end

