-- ==== Sys2Proof/Machine/Sampler.lean ====
section
/-! DEFINITION. The border policy sampler (41_border.md): the coordinate maps of R122 to R124, applied to each axis on its
own (R121), the constant of R125, and `sample` (R120). -/

namespace Sys2Proof.Machine

/-- `refl(p, n)` (R122): reflect with the edge sample repeated, for `n ≥ 1` and any `p`. -/
def refl (p n : Int) : Int :=
  let m := floorMod p (2 * n)
  if m < n then m else 2 * n - 1 - m

/-- `src(px, py)` (R97), for coordinates inside the image. -/
def State.src (s : State) (px py : Int) : Byte := s.byteAt .srcmem (py * s.width + px).toNat

/-- `sample_RFL` (R122). -/
def State.sampleRfl (s : State) (px py : Int) : Byte := s.src (refl px s.width) (refl py s.height)

/-- `sample_REP` (R123). -/
def State.sampleRep (s : State) (px py : Int) : Byte :=
  s.src (clampi px 0 (s.width - 1)) (clampi py 0 (s.height - 1))

/-- `sample_WRP` (R124). -/
def State.sampleWrp (s : State) (px py : Int) : Byte := s.src (floorMod px s.width) (floorMod py s.height)

/-- `sample_CST` (R125). -/
def State.sampleCst (s : State) (_px _py : Int) : Byte := s.cmd.fill

/-- `sample(px, py)` (R120): the source pixel in bounds, else what the policy of the CMD latch gives. -/
def State.sample (s : State) (px py : Int) : Byte :=
  if 0 ≤ px ∧ px < s.width ∧ 0 ≤ py ∧ py < s.height then s.src px py
  else match s.cmd.border with
    | .reflect => s.sampleRfl px py
    | .replicate => s.sampleRep px py
    | .wrap => s.sampleWrp px py
    | .constant => s.sampleCst px py

end Sys2Proof.Machine
end

