-- ==== Sys2Proof/Machine/Engine.lean ====
section
/-! DEFINITION. The convolution engine: the output pixel function (R99) and the engine step (R100). -/

namespace Sys2Proof.Machine

/-- `acc(x, y)` (R99): the exact weighted sum, in units of 1/256. A correlation: the kernel is not flipped (R103). -/
def State.acc (s : State) (kd : KernelEntry) (x y : Int) : Int :=
  sumBelow kd.kh.toNat fun j => sumBelow kd.kw.toNat fun i =>
    (kd.raw i j).toInt * ((s.sample (x + i - kd.ax.toNat) (y + j - kd.ay.toNat)).toNat : Int)

/-- The pixel a sum gives (R99, R101): rounded to nearest with ties up, then clamped to 0..255. -/
def pixelOf (acc : Int) : Int := sat8 (floorDiv (acc + 128) 256)

/-- `out(x, y)` (R99). -/
def State.out (s : State) (kd : KernelEntry) (x y : Int) : Byte := BitVec.ofInt 8 (pixelOf (s.acc kd x y))

/-- Write one DSTMEM byte. -/
def State.setDst (s : State) (a : Nat) (b : Byte) : State := { s with dstmem := s.dstmem.setByte a b }

/-- Move the scan position. -/
def State.moveTo (s : State) (ox oy : Byte) : State := { s with ox := ox, oy := oy }

/-- End a run: BUSY cleared, DONE set. -/
def State.complete (s : State) : State := { s with status := s.status.completed }

/-- The DSTMEM index of the scan position, `oy * W + ox` (R100). -/
def State.scanIndex (s : State) : Nat := s.oy.toNat * s.width + s.ox.toNat

/-- Advance the scan position in raster order, or end the run at the last pixel (R100). -/
def State.advance (s : State) : State :=
  if s.ox.toNat + 1 < s.width then s.moveTo (s.ox + 1#8) s.oy
  else if s.oy.toNat + 1 < s.height then s.moveTo 0#8 (s.oy + 1#8)
  else s.complete

/-- One engine step with a kernel descriptor (R100). -/
def enginePixel (kd : KernelEntry) (s : State) : State :=
  (s.setDst s.scanIndex (s.out kd s.ox.toNat s.oy.toNat)).advance

/-- The engine's step (R100), with the registry as an argument: enabled exactly when BUSY = 1; without it nothing
happens (R8). The fault is met only in states no run reaches (log 11). -/
def engineStepWith (krom : Krom) (s : State) : Host.Outcome State Fault Refusal :=
  if s.status.busy then
    match s.kernel krom with
    | some kd => .next (enginePixel kd s)
    | none => .fault .engineNoKernel
  else .next s

/-- The engine's step of this hardware. -/
def engineStep (s : State) : Host.Outcome State Fault Refusal := engineStepWith Config.krom s

end Sys2Proof.Machine
end

