-- ==== Sys2Proof/Machine/Conv.lean ====
section
/-! DEFINITION. The meanings of the `CONV` commands: each is the host step that writes the command word
(R91 with SEL = 0); the `W*H` engine steps that follow (R100) are steps of their own, since BUSY is visible in between. -/

namespace Sys2Proof.Machine

/-- `CONV.RFL` (R110): its run samples by R122. -/
def execConvRfl (fill fid : Byte) (s : State) : Host.Outcome State Fault Refusal :=
  submit { sel := false, border := .reflect, fill := fill, fid := fid } s

/-- `CONV.REP` (R111): its run samples by R123. -/
def execConvRep (fill fid : Byte) (s : State) : Host.Outcome State Fault Refusal :=
  submit { sel := false, border := .replicate, fill := fill, fid := fid } s

/-- `CONV.WRP` (R112): its run samples by R124. -/
def execConvWrp (fill fid : Byte) (s : State) : Host.Outcome State Fault Refusal :=
  submit { sel := false, border := .wrap, fill := fill, fid := fid } s

/-- `CONV.CST` (R113): its run samples by R125. -/
def execConvCst (fill fid : Byte) (s : State) : Host.Outcome State Fault Refusal :=
  submit { sel := false, border := .constant, fill := fill, fid := fid } s

end Sys2Proof.Machine
end

