-- ==== Sys2Proof/Machine/Filt.lean ====
section
/-! DEFINITION. The meanings of the `FILT` commands: each is the host step that writes the command word
(R91 with SEL = 1); the `W*H` engine steps that follow (R100) are steps of their own, since BUSY is visible in between. -/

namespace Sys2Proof.Machine

/-- `FILT.RFL` (R150): its run samples by R122. -/
def execFiltRfl (fill fid : Byte) (s : State) : Host.Outcome State Fault Refusal :=
  submit { sel := true, border := .reflect, fill := fill, fid := fid } s

/-- `FILT.REP` (R151): its run samples by R123. -/
def execFiltRep (fill fid : Byte) (s : State) : Host.Outcome State Fault Refusal :=
  submit { sel := true, border := .replicate, fill := fill, fid := fid } s

/-- `FILT.WRP` (R152): its run samples by R124. -/
def execFiltWrp (fill fid : Byte) (s : State) : Host.Outcome State Fault Refusal :=
  submit { sel := true, border := .wrap, fill := fill, fid := fid } s

/-- `FILT.CST` (R153): its run samples by R125. -/
def execFiltCst (fill fid : Byte) (s : State) : Host.Outcome State Fault Refusal :=
  submit { sel := true, border := .constant, fill := fill, fid := fid } s

end Sys2Proof.Machine
end

