-- ==== Sys2Proof/Machine/Nop.lean ====
section
/-! DEFINITION. The meaning of `NOP`. -/

namespace Sys2Proof.Machine

/-- `NOP` (R114): the latch is not updated, no flag is cleared, nothing starts; legal in every state. -/
def execNop (s : State) : Host.Outcome State Fault Refusal := .next s

end Sys2Proof.Machine
end

