-- ==== Sys2Proof/Machine/Dispatch.lean ====
section
/-! DEFINITION. `exec`: one arm per command of the opcode table. -/

namespace Sys2Proof.Machine

def exec (i : Instr) (s : State) : Host.Outcome State Fault Refusal :=
  match i with
  | .nop => Sys2Proof.Machine.execNop s
  | .convRfl fill fid => Sys2Proof.Machine.execConvRfl fill fid s
  | .filtRfl fill fid => Sys2Proof.Machine.execFiltRfl fill fid s
  | .convRep fill fid => Sys2Proof.Machine.execConvRep fill fid s
  | .filtRep fill fid => Sys2Proof.Machine.execFiltRep fill fid s
  | .convWrp fill fid => Sys2Proof.Machine.execConvWrp fill fid s
  | .filtWrp fill fid => Sys2Proof.Machine.execFiltWrp fill fid s
  | .convCst fill fid => Sys2Proof.Machine.execConvCst fill fid s
  | .filtCst fill fid => Sys2Proof.Machine.execFiltCst fill fid s

end Sys2Proof.Machine
end

