-- ==== Sys2Proof/Machine/HostPort.lean ====
section
/-! DEFINITION. The host port (20_memory.md): which accesses are legal and what they reach (R41, R46, R47), `MemRead` (R44)
and `MemWrite` (R45). A command is the data of a legal write to CMD. -/

namespace Sys2Proof.Machine

/-- The seven registers (R41). -/
inductive Reg where
  | id
  | cmd
  | status
  | ctrl
  | imgdim
  | kdim
  | anchor
  deriving DecidableEq, Repr

/-- The register at a word offset of REGS (R41). -/
def regAt (off : Nat) : Option Reg :=
  if off = 0x00 then some .id
  else if off = 0x04 then some .cmd
  else if off = 0x08 then some .status
  else if off = 0x0C then some .ctrl
  else if off = 0x10 then some .imgdim
  else if off = 0x14 then some .kdim
  else if off = 0x18 then some .anchor
  else none

/-- What a legal access reaches: a register, or `n` bytes of an array from index `off` on. -/
inductive Target where
  | reg (r : Reg)
  | bytes (name : ArrayName) (off n : Nat)
  deriving DecidableEq, Repr

/-- The number of bytes of a size code (R40); 3 is not a legal size. -/
def sizeBytes (size : BitVec 2) : Option Nat :=
  if size = 0#2 then some 1 else if size = 1#2 then some 2 else if size = 2#2 then some 4 else none

/-- The address map (R41) for an aligned access of `n` bytes; REGS takes only whole words (R46). -/
def mapAddr (a n : Nat) : Option Target :=
  if a ≤ 0x0001B then (if n = 4 then (regAt a).map .reg else none)
  else if 0x00400 ≤ a ∧ a ≤ 0x005FF then some (.bytes .kram (a - 0x00400) n)
  else if 0x10000 ≤ a ∧ a ≤ 0x1FFFF then some (.bytes .srcmem (a - 0x10000) n)
  else if 0x20000 ≤ a ∧ a ≤ 0x2FFFF then some (.bytes .dstmem (a - 0x20000) n)
  else none

/-- What an access reaches, none where it is not legal (R46, R47): a bad size, a misaligned address, an unmapped address,
or a part of a register. -/
def target (addr : Addr) (size : BitVec 2) : Option Target :=
  match sizeBytes size with
  | none => none
  | some n => if addr.toNat % n = 0 then mapAddr addr.toNat n else none

/-- What the CMD register reads as: the latch, with GO and the reserved bits as 0 (R13). -/
def CmdLatch.word (c : CmdLatch) : Word :=
  0#8 ++ c.fid ++ c.fill ++ 0#4 ++ c.border.code ++ BitVec.ofBool c.sel ++ 0#1

/-- What a register reads as (R12 to R18); reserved bits are 0 (R11). -/
def State.regWord (s : State) : Reg → Word
  | .id => Config.idValue
  | .cmd => s.cmd.word
  | .status => s.status.word
  | .ctrl => s.ctrl.word
  | .imgdim => s.imgdim.word
  | .kdim => s.kdim.word
  | .anchor => s.anchor.word

/-- The low `n` bytes of a data word, zero-extended (R49). -/
def lowBytes (n : Nat) (v : Word) : Word := BitVec.ofNat 32 (v.toNat % 2 ^ (8 * n))

/-- The data a legal read returns (R44). A read of DSTMEM while BUSY returns a free value of the access's size (R52). -/
def State.readData (s : State) : Target → Word
  | .reg r => s.regWord r
  | .bytes .kram off n => s.kram.le .kram off n
  | .bytes .srcmem off n => s.srcmem.le .srcmem off n
  | .bytes .dstmem off n =>
    if s.status.busy then lowBytes n (Config.freeRead s.draws) else s.dstmem.le .dstmem off n

/-- The counter of free reads after a legal read (R52; log 7): the only thing a read changes beside the response. -/
def State.countDraw (s : State) : Target → State
  | .bytes .dstmem _ _ => if s.status.busy then { s with draws := s.draws + 1 } else s
  | _ => s

/-- `MemRead` (R44): OKAY and the data, or ERROR and 0. -/
def hostRead (addr : Addr) (size : BitVec 2) (s : State) : State :=
  match target addr size with
  | none => s.respond .error 0#32
  | some g => (s.countDraw g).respond .okay (s.readData g)

/-- Write `n` bytes of a host-writable array (R45). -/
def State.writeArray (s : State) (name : ArrayName) (off : Nat) (v : Word) (n : Nat) : State :=
  match name with
  | .kram => { s with kram := s.kram.setBytes off v n }
  | .srcmem => { s with srcmem := s.srcmem.setBytes off v n }
  | .dstmem => s

/-- A host write to a register (R45). ID is read-only (R12); STATUS and CTRL are not locked (R50); a write to CMD is the
command the word is, whose meaning drops it while BUSY = 1 (R50; log 10). -/
def regWrite (r : Reg) (v : Word) (s : State) : Host.Outcome State Fault Refusal :=
  match r with
  | .id => .next s
  | .status => .next (s.acknowledge v)
  | .ctrl => .next { s with ctrl := Ctrl.ofWord v }
  | .cmd => exec (decodeWord v) s
  | .imgdim => .next (if s.status.busy then s else { s with imgdim := ImgDim.ofWord v })
  | .kdim => .next (if s.status.busy then s else { s with kdim := KDim.ofWord v })
  | .anchor => .next (if s.status.busy then s else { s with anchor := Anchor.ofWord v })

/-- The effect of a legal write (R45): DSTMEM ignores it (R51); the other arrays drop it while BUSY = 1 (R50). -/
def writeTarget (g : Target) (v : Word) (s : State) : Host.Outcome State Fault Refusal :=
  match g with
  | .reg r => regWrite r v s
  | .bytes name off n => .next (if s.status.busy then s else s.writeArray name off v n)

/-- `MemWrite` (R45): OKAY and the effect, or ERROR and none. The response of a write carries rdata 0 (R40). -/
def hostWrite (addr : Addr) (size : BitVec 2) (v : Word) (s : State) : Host.Outcome State Fault Refusal :=
  match target addr size with
  | none => .next (s.respond .error 0#32)
  | some g => writeTarget g v (s.respond .okay 0#32)

/-- One host transaction, indivisible (R43). -/
def hostStep (t : Transaction) (s : State) : Host.Outcome State Fault Refusal :=
  if t.write then hostWrite t.addr t.size t.wdata s else .next (hostRead t.addr t.size s)

/-- The transaction that writes a word to CMD (R70). -/
def cmdWrite (v : Word) : Transaction := { write := true, addr := 0x00004#18, size := 2#2, wdata := v }

end Sys2Proof.Machine
end

