-- ==== Sys2Proof/Machine/Reset.lean ====
section
/-! DEFINITION. Reset and power-on as steps (R190, R30). -/

namespace Sys2Proof.Machine

/-- What reset does to DSTMEM (R30): a reset that cuts a run leaves bytes `0 .. W*H-1` unspecified (U4), with W and H as
they were before it; any other leaves the array unchanged. -/
def State.dstAfterReset (s : State) : Memory :=
  if s.status.busy then s.dstmem.redraw (s.width * s.height) else s.dstmem

/-- Reset (R190): every register at its reset value, the arrays not written. What the model keeps for itself stays. The
scan position is don't-care: DESIGN CHOICE 0 (log 9). -/
def State.applyReset (s : State) : State :=
  { State.reset with
    kram := s.kram
    srcmem := s.srcmem
    dstmem := s.dstAfterReset
    agenda := s.agenda
    resp := s.resp
    draws := s.draws }

/-- Power-on (R190): a reset after which, in addition, the three arrays hold unspecified bytes (U3). -/
def State.applyPowerOn (s : State) : State :=
  { State.reset with
    kram := s.kram.redraw Config.kramBytes
    srcmem := s.srcmem.redraw Config.pixmemBytes
    dstmem := s.dstmem.redraw Config.pixmemBytes
    agenda := s.agenda
    resp := s.resp
    draws := s.draws }

end Sys2Proof.Machine
end

