-- ==== Sys2Proof/Machine/Agents.lean ====
section
/-! DEFINITION. What each event of the agenda does (R8): the host's transactions and its polling loop (R80), the engine's
step, reset and power-on; and what happens when the agenda is empty. -/

namespace Sys2Proof.Machine

/-- The word a POLL read returned: the data of the latest response. -/
def State.lastData (s : State) : Word :=
  match s.resp with
  | some r => r.rdata
  | none => 0#32

/-- One turn of `POLL addr, mask, value` (R80): read the word, and go on once `(data & mask) = value`. Otherwise the engine
moves before the host reads again: DESIGN CHOICE (log 3). -/
def pollStep (addr : Addr) (mask value : Word) (s : State) : State :=
  let t := hostRead addr 2#2 s
  if t.lastData &&& mask = value then t
  else t.withAgenda (.engine :: .poll addr mask value :: t.agenda)

/-- What an event does, in the state whose agenda is what comes after it. -/
def takeEvent (e : Event) (s : State) : Host.Outcome State Fault Refusal :=
  match e with
  | .host t => hostStep t s
  | .poll addr mask value => .next (pollStep addr mask value s)
  | .engine => engineStep s
  | .reset => .next s.applyReset
  | .powerOn => .next s.applyPowerOn

/-- The agenda's next event, or, when it is empty, the engine's step (R205), which does nothing to an idle block: nothing
happens until the host writes (R191; log 2). -/
def nextStep (s : State) : Host.Outcome State Fault Refusal :=
  match s.agenda with
  | [] => engineStep s
  | e :: rest => takeEvent e (s.withAgenda rest)

/-- Place an event before everything the agenda holds. -/
def State.schedule (s : State) (e : Event) : State := s.withAgenda (e :: s.agenda)

end Sys2Proof.Machine
end

