-- ==== Sys2Proof/Machine/Step.lean ====
section
/-! DEFINITION. One step of the machine (R8), and placing a command where the next step takes it. -/

namespace Sys2Proof.Machine

/-- One step: one host transaction, one engine step, a reset or a power-on, as the agenda says (R8; log 1). -/
def step (s : State) : Host.Outcome State Fault Refusal := nextStep s

/-- The state in which the very next step is the host's write of a command word to CMD (R70; log 13). -/
def State.withFetchWord (s : State) (nbits w : Nat) : State := s.schedule (.host (cmdWrite (tableWord nbits w)))

end Sys2Proof.Machine
end

