-- ==== Sys2Proof/Machine/Program.lean ====
section
/-! DEFINITION. Host programs: the transaction each line of the notation of R80 and R81 encodes, and loading a program. -/

namespace Sys2Proof.Machine

/-- `MemWrite(addr, n, v)` as an event; the size code of 1, 2, 4 bytes is 0, 1, 2 (R40). -/
def writeEvent (size : BitVec 2) (addr v : Nat) : Event :=
  .host { write := true, addr := BitVec.ofNat 18 addr, size := size, wdata := BitVec.ofNat 32 v }

/-- `MemRead(addr, n)` as an event. -/
def readEvent (size : BitVec 2) (addr : Nat) : Event :=
  .host { write := false, addr := BitVec.ofNat 18 addr, size := size, wdata := 0#32 }

/-- `POLL addr, mask, value` as an event. -/
def pollEvent (addr mask value : Nat) : Event :=
  .poll (BitVec.ofNat 18 addr) (BitVec.ofNat 32 mask) (BitVec.ofNat 32 value)

/-- The transaction a line of a host program is: R80 for the plain lines, the expansions of R81 for the others. -/
def lineEvent : HostLine → Event
  | .wr32 addr v => writeEvent 2#2 addr v
  | .wr16 addr v => writeEvent 1#2 addr v
  | .wr8 addr v => writeEvent 0#2 addr v
  | .rd32 addr => readEvent 2#2 addr
  | .rd16 addr => readEvent 1#2 addr
  | .rd8 addr => readEvent 0#2 addr
  | .poll addr mask value => pollEvent addr mask value
  | .setimg w h => writeEvent 2#2 0x00010 ((w - 1) + 256 * (h - 1))
  | .setk kw kh => writeEvent 2#2 0x00014 (kw + 256 * kh)
  | .seta ax ay => writeEvent 2#2 0x00018 (ax + 256 * ay)
  | .ldw k raw => writeEvent 1#2 (0x00400 + 2 * k) (floorMod raw 65536).toNat
  | .ldpix a v => writeEvent 0#2 (0x10000 + a) v
  | .rdpix a => readEvent 0#2 (0x20000 + a)
  | .conv b => writeEvent 2#2 0x00004 (1 + 4 * b.code.toNat)
  | .convCst fill => writeEvent 2#2 0x00004 (13 + 256 * fill)
  | .filt b fid => writeEvent 2#2 0x00004 (3 + 4 * b.code.toNat + 65536 * fid)
  | .filtCst fid fill => writeEvent 2#2 0x00004 (15 + 256 * fill + 65536 * fid)
  | .nop => writeEvent 2#2 0x00004 0
  | .wait => pollEvent 0x00008 0x00000001 0x00000000
  | .ack => writeEvent 2#2 0x00008 0x00000006
  | .irqen e => writeEvent 2#2 0x0000C e

/-- Place a host program before everything the agenda holds. -/
def State.load (s : State) (program : List HostLine) : State :=
  { s with agenda := program.map lineEvent ++ s.agenda }

end Sys2Proof.Machine
end

