-- ==== Sys2Proof/Safety.lean ====
section
/-! DEFINITION. What claims speak of: the invariant of R31, a machine that can stop or not, the state of a run, and what
counts as an operand of a run (R29). -/

namespace Sys2Proof.Machine

/-- The three arrays are in canonical form, each inside its size (R20 to R22). -/
def State.ArraysWf (s : State) : Prop :=
  s.kram.wf Config.kramBytes ∧ s.srcmem.wf Config.pixmemBytes ∧ s.dstmem.wf Config.pixmemBytes

/-- The invariant of R31, with what accept establishes for a running engine (R91) and the canonical form of the arrays. -/
structure State.Inv (s : State) : Prop where
  /-- R31 (a): BUSY = 1 implies DONE = 0 and ERR = 0. -/
  busyAlone : s.status.busy = true → s.status.done = false ∧ s.status.err = false
  /-- R31 (b): DONE and ERR are never both 1. -/
  doneOrErr : ¬(s.status.done = true ∧ s.status.err = true)
  /-- R31 (c): ERR = 0 implies ERRCODE = 0. -/
  noCode : s.status.err = false → s.status.errcode = 0#3
  /-- R31 (c): ERR = 1 implies ERRCODE is 1, 2 or 3. -/
  someCode : s.status.err = true → s.status.errcode = 1#3 ∨ s.status.errcode = 2#3 ∨ s.status.errcode = 3#3
  /-- R31 (e): the scan position is inside the image while BUSY = 1. -/
  scanInside : s.status.busy = true → s.ox.toNat < s.width ∧ s.oy.toNat < s.height
  /-- R91: a running engine has a kernel that passed the checks. -/
  checked : s.status.busy = true → s.checkCommand Config.krom = none
  /-- The canonical form of the arrays. -/
  arrays : s.ArraysWf

/-- The bytes `0 .. n-1` of an array are the same in two states. -/
def sameBytes (name : ArrayName) (n : Nat) (s t : State) : Prop := ∀ a, a < n → t.byteAt name a = s.byteAt name a

/-- Everything a run reads is the same in two states (R29): IMGDIM, the CMD latch, KDIM, ANCHOR, KRAM and SRCMEM. -/
structure SameOperands (s t : State) : Prop where
  cmd : t.cmd = s.cmd
  imgdim : t.imgdim = s.imgdim
  kdim : t.kdim = s.kdim
  anchor : t.anchor = s.anchor
  kram : t.kram = s.kram
  srcmem : t.srcmem = s.srcmem

/-- The `CONV` command with a border policy (R74, R81). -/
def convInstr (b : Border) (fill fid : Byte) : Instr :=
  match b with
  | .reflect => .convRfl fill fid
  | .replicate => .convRep fill fid
  | .wrap => .convWrp fill fid
  | .constant => .convCst fill fid

/-- The `FILT` command with a border policy (R74, R81). -/
def filtInstr (b : Border) (fill fid : Byte) : Instr :=
  match b with
  | .reflect => .filtRfl fill fid
  | .replicate => .filtRep fill fid
  | .wrap => .filtWrp fill fid
  | .constant => .filtCst fill fid

/-- The latch a `CONV` command stores (R13, R91). -/
def convLatch (b : Border) (fill fid : Byte) : CmdLatch := { sel := false, border := b, fill := fill, fid := fid }

/-- The latch a `FILT` command stores (R13, R91). -/
def filtLatch (b : Border) (fill fid : Byte) : CmdLatch := { sel := true, border := b, fill := fill, fid := fid }

/-- What an accepted command whose checks pass leaves (R91, R96): latch stored, only BUSY set, position (0, 0). -/
def State.running (s : State) (c : CmdLatch) : State :=
  { s with
    cmd := c
    status := { busy := true, done := false, err := false, errcode := 0#3 }
    ox := 0#8
    oy := 0#8 }

/-- What an accepted command that fails leaves (R91, R165): latch stored, only ERR set, with the error's code. -/
def State.failedWith (s : State) (c : CmdLatch) (e : CommandError) : State :=
  { s with cmd := c, status := { busy := false, done := false, err := true, errcode := e.code } }

/-- The registers and arrays of the spec (R10) are the same in two states: they differ at most in the model's own fields. -/
structure SameBlock (s t : State) : Prop where
  operands : SameOperands s t
  status : t.status = s.status
  ctrl : t.ctrl = s.ctrl
  dstmem : t.dstmem = s.dstmem
  scan : t.ox = s.ox ∧ t.oy = s.oy

/-- `n` steps of the machine. -/
def runSteps (n : Nat) (s : State) : Host.Outcome State Fault Refusal := core.run n s

/-- A state with the operands of `CONV` replaced: KDIM, ANCHOR and KRAM (R147). -/
def State.withConvOperands (s : State) (k : KDim) (a : Anchor) (m : Memory) : State :=
  { s with kdim := k, anchor := a, kram := m }

/-- The host address of an array's first byte (R41). -/
def arrayBase : ArrayName → Nat
  | .kram => 0x00400
  | .srcmem => 0x10000
  | .dstmem => 0x20000

/-- The number of bytes of an array (R20 to R22). -/
def arraySize : ArrayName → Nat
  | .kram => 512
  | .srcmem => 65536
  | .dstmem => 65536

/-- An access of a size code at an index of an array is legal (R46, R47): a size of 1, 2 or 4 bytes, aligned, inside. -/
def legalIndex (name : ArrayName) (size : BitVec 2) (a : Nat) : Prop :=
  size ≠ 3#2 ∧ a % 2 ^ size.toNat = 0 ∧ a + 2 ^ size.toNat ≤ arraySize name

/-- The next event is the host's write to CMD of a word with GO = 1, on an idle block: a command is accepted (R91). -/
def State.accepting (s : State) : Prop :=
  s.status.busy = false ∧ ∃ v rest, s.agenda = .host (cmdWrite v) :: rest ∧ v.getLsbD 0 = true

/-- The next event is the host's write to STATUS of a word with a bit set (R14). -/
def State.acknowledging (s : State) (bit : Nat) : Prop :=
  ∃ (v : Word) (rest : List Event), s.agenda = writeEvent 2#2 0x00008 v.toNat :: rest ∧ v.getLsbD bit = true

/-- The next event is a reset, or a power-on, which is one (R190). -/
def State.resetting (s : State) : Prop := ∃ rest, s.agenda = .reset :: rest ∨ s.agenda = .powerOn :: rest

/-- The next step is the engine's: an engine event, or nothing is due (log 2). -/
def State.engineDue (s : State) : Prop := s.agenda = [] ∨ ∃ rest, s.agenda = .engine :: rest

/-- The outcome is a next state that satisfies `P`. -/
def nextWith (o : Host.Outcome State Fault Refusal) (P : State → Prop) : Prop := ∃ t, o = .next t ∧ P t

end Sys2Proof.Machine
end

