-- ==== Sys2Proof/Certificates/Slice0/Obligations.lean ====
section
/-! DEFINITION. The statements about the model, each from the numbered rules of spec/ its docstring names. -/

open Sys2Proof Sys2Proof.Machine

/-! ## Encoding and decoding -/

/-- Decode and encode agree: every well-formed command, with every value of FILL and FID, laid out as bytes with anything
after it, decodes to itself (format `C` of R70, opcode map of R74). -/
def Obligations.DecodeOfEncode : Prop :=
  ∀ (i : Instr) (rest : List Byte), i.wf = true → decode (encode i ++ rest) = .ok (i, rest)

/-- R74, R76: exactly one row of the opcode map matches every 32-bit word, and it is the row of the command the decoder
reads from that word. -/
def Obligations.EveryWordIsExactlyOneRow : Prop :=
  ∀ v : Word, ∃ r ∈ opcodeTable, r.matchesWord v = true ∧ r.mnemonic = (decodeWord v).mnemonic ∧
    ∀ r' ∈ opcodeTable, r'.matchesWord v = true → r' = r

/-- Sanity: words written out bit by bit from R70 and R74, one for each family, decode to the commands they stand for. -/
def Obligations.WrittenOutWordsDecode : Prop :=
  decodeWord 0b11111111_11111111_11111111_11111110#32 = .nop ∧
  decodeWord 0b00000000_00000000_00000111_00001101#32 = .convCst 7#8 0#8 ∧
  decodeWord 0b11111111_00000000_00000000_11110001#32 = .convRfl 0#8 0#8 ∧
  decodeWord 0b00000000_00000101_00000000_00000011#32 = .filtRfl 0#8 5#8 ∧
  decodeWord 0b00000000_00000001_00001010_00001111#32 = .filtCst 10#8 1#8

/-- R81: the pseudo-instructions that write CMD expand to the words of the commands they name, with the operand of the
pseudo-instruction in its field, at every operand R81 admits. -/
def Obligations.PseudoCommandsExpandToTheirCommands : Prop :=
  (∀ b : Border, ∃ w, lineEvent (.conv b) = .host (cmdWrite w) ∧ decodeWord w = convInstr b 0#8 0#8) ∧
  (∀ fill : Byte, ∃ w, lineEvent (.convCst fill.toNat) = .host (cmdWrite w) ∧ decodeWord w = .convCst fill 0#8) ∧
  (∀ (b : Border) (fid : Byte),
    ∃ w, lineEvent (.filt b fid.toNat) = .host (cmdWrite w) ∧ decodeWord w = filtInstr b 0#8 fid) ∧
  (∀ fid fill : Byte,
    ∃ w, lineEvent (.filtCst fid.toNat fill.toNat) = .host (cmdWrite w) ∧ decodeWord w = .filtCst fill fid) ∧
  (∃ w, lineEvent .nop = .host (cmdWrite w) ∧ decodeWord w = .nop)

/-- R81: on an idle block SETIMG, SETK, SETA, LDW and LDPIX leave the operand they name: the image is W by H, the kernel
kW by kH, the anchor (ax, ay), weight `k` has the signed value `raw`, and source byte `a` has the value `v`. -/
def Obligations.OperandLinesSetTheirOperands : Prop :=
  ∀ (s : State) (rest : List Event), s.status.busy = false →
    (∀ w h, (HostLine.setimg w h).wf = true → s.agenda = lineEvent (.setimg w h) :: rest →
      nextWith (step s) fun t => t.width = w ∧ t.height = h) ∧
    (∀ kw kh, (HostLine.setk kw kh).wf = true → s.agenda = lineEvent (.setk kw kh) :: rest →
      nextWith (step s) fun t => t.kdim.kw.toNat = kw ∧ t.kdim.kh.toNat = kh) ∧
    (∀ ax ay, (HostLine.seta ax ay).wf = true → s.agenda = lineEvent (.seta ax ay) :: rest →
      nextWith (step s) fun t => t.anchor.ax.toNat = ax ∧ t.anchor.ay.toNat = ay) ∧
    (∀ k raw, (HostLine.ldw k raw).wf = true → s.agenda = lineEvent (.ldw k raw) :: rest →
      nextWith (step s) fun t => (t.kramWeight k).toInt = raw) ∧
    (∀ a v, (HostLine.ldpix a v).wf = true → s.agenda = lineEvent (.ldpix a v) :: rest →
      nextWith (step s) fun t => (t.byteAt .srcmem a).toNat = v)

/-! ## Commands: completion, failure, frame -/

/-- A step runs the decoded command: where the next event is the host's write of a word to CMD, the bytes of the word
decode to a command, and the step is `exec` of it in the state whose agenda is the rest and whose latest response is OKAY
with rdata 0 (R40, R45, R70). Agenda and stored response are the model's own (log 1, log 4). -/
def Obligations.StepRunsTheDecodedCommand : Prop :=
  ∀ (s : State) (v : Word) (rest : List Event), s.agenda = .host (cmdWrite v) :: rest →
    decode (bytesOfWord v) = .ok (decodeWord v, []) ∧ (decodeWord v).wf = true ∧
    step s = exec (decodeWord v) ((s.withAgenda rest).respond .okay 0#32)

/-- R114, `NOP`: a CMD write with bit 0 clear decodes to NOP whatever its other bits are; NOP leaves the whole state as
it was, in every state; written to CMD it only takes the event and gets the response OKAY; and while BUSY = 1 every
command behaves like it. -/
def Obligations.NopHasNoEffect : Prop :=
  ∀ (s : State) (v : Word) (rest : List Event), v.getLsbD 0 = false →
    decodeWord v = .nop ∧ exec .nop s = .next s ∧
    (s.agenda = .host (cmdWrite v) :: rest → step s = .next ((s.withAgenda rest).respond .okay 0#32)) ∧
    (s.status.busy = true → ∀ i, exec i s = .next s)

/-- CONV.RFL, CONV.REP, CONV.WRP and CONV.CST complete (R91, R110 to R113): on an idle block, with a kernel of at least
one cell and the anchor inside it, the command is accepted: the latch holds its fields, BUSY alone is set, the scan
position is (0, 0), everything else is as it was. -/
def Obligations.ConvCommandsStartTheirRun : Prop :=
  ∀ (s : State) (fill fid : Byte), s.status.busy = false →
    s.anchor.ax.toNat < s.kdim.kw.toNat → s.anchor.ay.toNat < s.kdim.kh.toNat →
    exec (.convRfl fill fid) s = .next (s.running (convLatch .reflect fill fid)) ∧
    exec (.convRep fill fid) s = .next (s.running (convLatch .replicate fill fid)) ∧
    exec (.convWrp fill fid) s = .next (s.running (convLatch .wrap fill fid)) ∧
    exec (.convCst fill fid) s = .next (s.running (convLatch .constant fill fid))

/-- FILT.RFL, FILT.REP, FILT.WRP and FILT.CST complete (R91, R144, R150 to R153): on an idle block, with a registered
identifier (0 to 7), the command is accepted whatever KDIM and ANCHOR hold. -/
def Obligations.FiltCommandsStartTheirRun : Prop :=
  ∀ (s : State) (fill fid : Byte), s.status.busy = false → fid.toNat < 8 →
    exec (.filtRfl fill fid) s = .next (s.running (filtLatch .reflect fill fid)) ∧
    exec (.filtRep fill fid) s = .next (s.running (filtLatch .replicate fill fid)) ∧
    exec (.filtWrp fill fid) s = .next (s.running (filtLatch .wrap fill fid)) ∧
    exec (.filtCst fill fid) s = .next (s.running (filtLatch .constant fill fid))

/-- R145: on an idle block a FILT command fails with UnknownFilter exactly when its identifier is 8 to 255, whatever KDIM
and ANCHOR hold; it writes no array, and no FILT command fails in another way. -/
def Obligations.UnknownFilterExactlyUnregistered : Prop :=
  ∀ (s : State) (b : Border) (fill fid : Byte), s.status.busy = false →
    (8 ≤ fid.toNat → exec (filtInstr b fill fid) s = .next (s.failedWith (filtLatch b fill fid) .unknownFilter)) ∧
    (∀ t, exec (filtInstr b fill fid) s = .next t →
      ((t.status.err = true ↔ 8 ≤ fid.toNat) ∧ (t.status.err = true → t.status.errcode = 3#3)) ∧
      t.srcmem = s.srcmem ∧ t.dstmem = s.dstmem)

/-- R93: a CONV command on an idle block fails with InvalidKernel exactly when KW = 0 or KH = 0; and with any registry, a
command whose kernel descriptor is `kd` does exactly when a dimension of `kd` is 0. Nothing else about the kernel is
checked. -/
def Obligations.InvalidKernelExactlyZeroSize : Prop :=
  ∀ (c : CmdLatch) (s : State), s.status.busy = false →
    (∀ b fill fid, exec (convInstr b fill fid) s = .next (s.failedWith (convLatch b fill fid) .invalidKernel) ↔
      s.kdim.kw.toNat = 0 ∨ s.kdim.kh.toNat = 0) ∧
    (∀ (krom : Krom) (kd : KernelEntry), (s.latch c).kernel krom = some kd →
      (submitTo krom c s = s.failedWith c .invalidKernel ↔ kd.kw.toNat = 0 ∨ kd.kh.toNat = 0))

/-- R94: a CONV command on an idle block whose kernel has cells fails with InvalidAnchor exactly when `AX >= KW` or
`AY >= KH`; and with any registry, a command whose kernel descriptor `kd` has cells does exactly when its anchor is
outside. Any cell of the kernel is a legal anchor. -/
def Obligations.InvalidAnchorExactlyOutside : Prop :=
  ∀ (c : CmdLatch) (s : State), s.status.busy = false →
    (∀ b fill fid, s.kdim.kw.toNat ≠ 0 → s.kdim.kh.toNat ≠ 0 →
      (exec (convInstr b fill fid) s = .next (s.failedWith (convLatch b fill fid) .invalidAnchor) ↔
        s.kdim.kw.toNat ≤ s.anchor.ax.toNat ∨ s.kdim.kh.toNat ≤ s.anchor.ay.toNat)) ∧
    (∀ (krom : Krom) (kd : KernelEntry), (s.latch c).kernel krom = some kd → kd.kw.toNat ≠ 0 → kd.kh.toNat ≠ 0 →
      (submitTo krom c s = s.failedWith c .invalidAnchor ↔ kd.kw.toNat ≤ kd.ax.toNat ∨ kd.kh.toNat ≤ kd.ay.toNat))

/-- R166, for any registry: one command reports one error, the first of UnknownFilter, InvalidKernel, InvalidAnchor. So a
CONV with a zero dimension reports InvalidKernel whatever ANCHOR holds, and a FILT with an unregistered identifier
reports UnknownFilter whatever KDIM and ANCHOR hold. -/
def Obligations.ErrorPriority : Prop :=
  ∀ (krom : Krom) (c : CmdLatch) (s : State) (k : KDim) (a : Anchor), s.status.busy = false →
    (c.sel = true → krom c.fid = none →
      (submitTo krom c { s with kdim := k, anchor := a }).status =
        { busy := false, done := false, err := true, errcode := 3#3 }) ∧
    (c.sel = false → k.kw = 0#4 ∨ k.kh = 0#4 →
      (submitTo krom c { s with kdim := k, anchor := a }).status =
        { busy := false, done := false, err := true, errcode := 1#3 }) ∧
    (∀ e, c.sel = true → krom c.fid = some e → e.kw = 0#4 ∨ e.kh = 0#4 →
      (submitTo krom c { s with kdim := k, anchor := a }).status =
        { busy := false, done := false, err := true, errcode := 1#3 }) ∧
    (∀ e, c.sel = true → krom c.fid = some e → e.kw ≠ 0#4 → e.kh ≠ 0#4 → e.kw ≤ e.ax ∨ e.kh ≤ e.ay →
      (submitTo krom c { s with kdim := k, anchor := a }).status =
        { busy := false, done := false, err := true, errcode := 2#3 }) ∧
    (c.sel = false → k.kw ≠ 0#4 → k.kh ≠ 0#4 → k.kw ≤ a.ax ∨ k.kh ≤ a.ay →
      (submitTo krom c { s with kdim := k, anchor := a }).status =
        { busy := false, done := false, err := true, errcode := 2#3 })

/-- R95, R165: a command that fails changes the CMD latch and STATUS and nothing else, sets neither BUSY nor DONE, does
not look at the pixels (with any other source image it fails alike), and repeated it fails the same way. -/
def Obligations.FailedCommandTouchesOnlyLatchAndStatus : Prop :=
  ∀ (i : Instr) (s t : State), s.status.busy = false → i ≠ .nop → exec i s = .next t → t.status.err = true →
    (∃ c e, t = s.failedWith c e) ∧ exec i t = .next t ∧
    ∀ m, exec i { s with srcmem := m } = .next { t with srcmem := m }

/-- The frame of the nine commands (NOP, CONV.RFL, CONV.REP, CONV.WRP, CONV.CST, FILT.RFL, FILT.REP, FILT.WRP, FILT.CST):
a command leaves CTRL, IMGDIM, KDIM, ANCHOR and every byte of the three arrays as they were, and the model's own fields
too; it moves the scan position only by starting a run, and while BUSY = 1 it changes nothing (R91, R95, R96, R114). -/
def Obligations.CommandFrame : Prop :=
  ∀ (i : Instr) (s t : State), exec i s = .next t →
    t.ctrl = s.ctrl ∧ t.imgdim = s.imgdim ∧ t.kdim = s.kdim ∧ t.anchor = s.anchor ∧
    (∀ name a, t.byteAt name a = s.byteAt name a) ∧
    t.agenda = s.agenda ∧ t.resp = s.resp ∧ t.draws = s.draws ∧
    (t.status.busy = false → t.ox = s.ox ∧ t.oy = s.oy) ∧
    (s.status.busy = true → t = s) ∧ (i = .nop → t = s)

/-- R13, R77: a command written to CMD of an idle block is stored in the latch whole, used or not: a read of CMD returns
the written word with GO and the reserved bits as 0. Written to a busy block, or without GO, it leaves the latch. -/
def Obligations.CommandLatchReadsBack : Prop :=
  ∀ (s : State) (v : Word) (rest : List Event),
    s.agenda = .host (cmdWrite v) :: readEvent 2#2 0x00004 :: rest →
    nextWith (runSteps 2 s) fun t =>
      (s.status.busy = false → v.getLsbD 0 = true → t.resp = some ⟨.okay, v &&& 0x00FFFF0E#32⟩) ∧
      (s.status.busy = true ∨ v.getLsbD 0 = false → t.resp = some ⟨.okay, s.cmd.word⟩)

/-- R164, over the whole machine: a step that sets ERR, or changes the code of one that is set, is the host's write to CMD
of a word with GO = 1, on an idle block; no engine step, no reset, no read and no other write raises an error. -/
def Obligations.ErrorsOnlyAtAcceptance : Prop :=
  ∀ s t : State, step s = .next t → t.status.err = true →
    s.status.err = false ∨ t.status.errcode ≠ s.status.errcode →
    ∃ v rest, s.agenda = .host (cmdWrite v) :: rest ∧ v.getLsbD 0 = true ∧ s.status.busy = false ∧
      t.status.busy = false ∧ t.status.done = false

/-! ## The engine -/

/-- R100, one engine step: a busy engine with a kernel writes `out` at the scan position and no other byte, and moves the
position in raster order, or at the last pixel clears BUSY and sets DONE; it changes nothing else. (One pixel per step in
raster order is the model's choice of R100's reference sequencing, log 12: no host observes it.) -/
def Obligations.EngineStepWritesOnePixel : Prop :=
  ∀ (s : State) (kd : KernelEntry), s.status.busy = true → s.kernel Config.krom = some kd →
    s.ox.toNat < s.width → s.oy.toNat < s.height →
    nextWith (engineStep s) fun t =>
      t.byteAt .dstmem (s.oy.toNat * s.width + s.ox.toNat) = s.out kd s.ox.toNat s.oy.toNat ∧
      (∀ a, a ≠ s.oy.toNat * s.width + s.ox.toNat → t.byteAt .dstmem a = s.byteAt .dstmem a) ∧
      SameOperands s t ∧ t.ctrl = s.ctrl ∧ t.agenda = s.agenda ∧ t.resp = s.resp ∧ t.draws = s.draws ∧
      (if s.ox.toNat + 1 < s.width then
        t.ox.toNat = s.ox.toNat + 1 ∧ t.oy = s.oy ∧ t.status = s.status
      else if s.oy.toNat + 1 < s.height then
        t.ox.toNat = 0 ∧ t.oy.toNat = s.oy.toNat + 1 ∧ t.status = s.status
      else
        t.ox = s.ox ∧ t.oy = s.oy ∧ t.status = { s.status with busy := false, done := true })

/-- R105: if a command is accepted with its checks passed, `W * H` steps later, with no host event in between, the run is
complete: DSTMEM holds `out(x, y)` of the state at acceptance at every pixel, every DSTMEM byte at or above `W * H` is
what it was, SRCMEM, KRAM, IMGDIM, KDIM, ANCHOR and the latch are what they were, and STATUS reads 0x00000002. (That
the engine steps when nothing else is due is log 2, that a step is one pixel log 12.) -/
def Obligations.AcceptedCommandComputesTheImage : Prop :=
  ∀ (i : Instr) (s u : State), s.status.busy = false → s.agenda = [] → exec i s = .next u → u.status.busy = true →
    ∃ kd, u.kernel Config.krom = some kd ∧
      nextWith (runSteps (s.width * s.height) u) fun t =>
        (∀ x y, x < s.width → y < s.height → t.byteAt .dstmem (y * s.width + x) = u.out kd x y) ∧
        (∀ a, s.width * s.height ≤ a → t.byteAt .dstmem a = s.byteAt .dstmem a) ∧
        SameOperands u t ∧ t.srcmem = s.srcmem ∧ t.kram = s.kram ∧ t.imgdim = s.imgdim ∧ t.kdim = s.kdim ∧
        t.anchor = s.anchor ∧ t.ctrl = s.ctrl ∧ t.status.word = 0x00000002#32

/-- R172, R205: from any state that meets the invariant with the engine running and no host event pending, the run ends
after exactly the steps its remaining pixels take: BUSY stays 1 until then, and then DONE is set. (That the engine steps
when nothing else is due is log 2; that its remaining pixels are those from the scan position on, one per step in raster
order, is the model's choice, log 12.) -/
def Obligations.RunEndsAfterItsRemainingPixels : Prop :=
  ∀ s : State, s.Inv → s.status.busy = true → s.agenda = [] →
    (∀ j, j < s.width * s.height - s.scanIndex → nextWith (runSteps j s) fun t => t.status.busy = true) ∧
    (nextWith (runSteps (s.width * s.height - s.scanIndex) s) fun t => t.status.busy = false ∧ t.status.done = true) ∧
    s.scanIndex < s.width * s.height

/-- R50, R117: no host transaction disturbs a run: while BUSY = 1 it leaves BUSY, the scan position, DSTMEM and every
operand of the run as they were. -/
def Obligations.HostCannotDisturbARun : Prop :=
  ∀ (s u : State) (t : Transaction) (rest : List Event), s.status.busy = true → s.agenda = .host t :: rest →
    step s = .next u →
    u.status.busy = true ∧ u.ox = s.ox ∧ u.oy = s.oy ∧ u.dstmem = s.dstmem ∧ SameOperands s u ∧ u.agenda = rest

/-- R106, R29: the output pixel depends only on IMGDIM, BORDER and FILL, the first `W*H` bytes of SRCMEM, and, for CONV,
KDIM, ANCHOR and the first `kW*kH` weights of KRAM: two states that agree on them give the same pixels, whatever else
they hold. -/
def Obligations.OutputDependsOnlyOnOperands : Prop :=
  ∀ (s t : State) (x y : Int), t.imgdim = s.imgdim → t.cmd.border = s.cmd.border → t.cmd.fill = s.cmd.fill →
    sameBytes .srcmem (s.width * s.height) s t →
    (∀ kd, t.out kd x y = s.out kd x y) ∧
    (t.kdim = s.kdim → t.anchor = s.anchor → sameBytes .kram (2 * (s.kdim.kw.toNat * s.kdim.kh.toNat)) s t →
      t.out t.convKernel x y = s.out s.convKernel x y)

/-- R77: don't-care fields have no effect on the result. FILL has none unless the policy is constant, FID has none on a
pixel whose kernel descriptor is given; and for CONV, or with the same FID, the kernel descriptor is the same too, in any
registry, so that every engine step of the run does the same. -/
def Obligations.UnusedFieldsDoNotMatter : Prop :=
  ∀ (s s' : State) (fill fid : Byte), s' = { s with cmd := { s.cmd with fill := fill, fid := fid } } →
    (s.cmd.border ≠ .constant ∨ fill = s.cmd.fill) →
    (∀ kd x y, s'.out kd x y = s.out kd x y) ∧
    (s.cmd.sel = false ∨ fid = s.cmd.fid →
      (∀ krom, s'.kernel krom = s.kernel krom) ∧
      ∀ t, engineStep s = .next t → engineStep s' = .next { t with cmd := s'.cmd })

/-- R104: with the fields' widths, the requested coordinates lie in -14 .. 269, the accumulator of every pixel lies in
-1_880_064_000 .. 1_880_006_625, so that a signed 32-bit word holds it and it plus 128 exactly, and the floored division
by 256 is that word's arithmetic right shift by 8. -/
def Obligations.AccumulatorFitsThirtyTwoBits : Prop :=
  ∀ (s : State) (kd : KernelEntry) (x y : Byte), kd.ax.toNat < kd.kw.toNat → kd.ay.toNat < kd.kh.toNat →
    (∀ i, i < kd.kw.toNat → -14 ≤ (x.toNat : Int) + i - kd.ax.toNat ∧ (x.toNat : Int) + i - kd.ax.toNat ≤ 269) ∧
    (∀ j, j < kd.kh.toNat → -14 ≤ (y.toNat : Int) + j - kd.ay.toNat ∧ (y.toNat : Int) + j - kd.ay.toNat ≤ 269) ∧
    -1880064000 ≤ s.acc kd x.toNat y.toNat ∧ s.acc kd x.toNat y.toNat ≤ 1880006625 ∧
    (BitVec.ofInt 32 (s.acc kd x.toNat y.toNat)).toInt = s.acc kd x.toNat y.toNat ∧
    (BitVec.ofInt 32 (s.acc kd x.toNat y.toNat) + 128#32).toInt = s.acc kd x.toNat y.toNat + 128 ∧
    ((BitVec.ofInt 32 (s.acc kd x.toNat y.toNat) + 128#32).sshiftRight 8).toInt =
      floorDiv (s.acc kd x.toNat y.toNat + 128) 256

/-- R101: a sum is rounded to the nearest integer with ties up, then clamped: a sum whose nearest integer is in 0..255
gives that integer (a tie the upper one), every smaller sum gives 0 and every larger one 255. -/
def Obligations.PixelRoundsTiesUpAndSaturates : Prop :=
  ∀ acc : Int,
    (∀ n : Int, 0 ≤ n → n ≤ 255 → (pixelOf acc = n ↔
      (256 * n - 128 ≤ acc ∧ acc < 256 * n + 128) ∨ (n = 0 ∧ acc < 128) ∨ (n = 255 ∧ 256 * 255 - 128 ≤ acc))) ∧
    0 ≤ pixelOf acc ∧ pixelOf acc ≤ 255

/-- R102: clamping the exact sum into 0 .. 255 and then rounding gives the same pixel as rounding and then clamping. -/
def Obligations.ClampThenRoundAgrees : Prop :=
  ∀ acc : Int, floorDiv (clampi acc 0 (256 * 255) + 128) 256 = pixelOf acc

/-- R107: moving the anchor one cell right, one cell down, or both, has the effect on the sums of moving the output position
one pixel left, up, or both: the output is shifted right, down, or both. -/
def Obligations.AnchorMovesTheOutput : Prop :=
  ∀ (s : State) (kd kd' : KernelEntry) (x y : Int), kd'.kw = kd.kw → kd'.kh = kd.kh → kd'.raw = kd.raw →
    (kd'.ax.toNat = kd.ax.toNat + 1 → kd'.ay = kd.ay → s.acc kd' x y = s.acc kd (x - 1) y) ∧
    (kd'.ax = kd.ax → kd'.ay.toNat = kd.ay.toNat + 1 → s.acc kd' x y = s.acc kd x (y - 1)) ∧
    (kd'.ax.toNat = kd.ax.toNat + 1 → kd'.ay.toNat = kd.ay.toNat + 1 → s.acc kd' x y = s.acc kd (x - 1) (y - 1))

/-- R116, first row (S1's identity kernel): with a 1 x 1 kernel of weight 1.0 and anchor (0, 0), under any border policy,
every output pixel is the source pixel. -/
def Obligations.IdentityKernelCopiesTheImage : Prop :=
  ∀ (s : State) (kd : KernelEntry) (x y : Nat), kd.kw = 1#4 → kd.kh = 1#4 → kd.ax = 0#4 → kd.ay = 0#4 →
    kd.raw 0 0 = 0x0100#16 → x < s.width → y < s.height → s.out kd x y = s.byteAt .srcmem (y * s.width + x)

/-- R103, R107: no flip. A kernel whose one non-zero weight is 1.0 at cell (i0, j0) gives at every pixel the sample at offset
`(i0 - ax, j0 - ay)` from it, in bounds or not: the examples of R110 to R113 are cases of it. -/
def Obligations.UnitWeightKernelShiftsTheImage : Prop :=
  ∀ (s : State) (kd : KernelEntry) (i0 j0 : Nat) (x y : Int), i0 < kd.kw.toNat → j0 < kd.kh.toNat →
    kd.raw i0 j0 = 0x0100#16 →
    (∀ i j, i < kd.kw.toNat → j < kd.kh.toNat → i ≠ i0 ∨ j ≠ j0 → kd.raw i j = 0#16) →
    s.out kd x y = s.sample (x + i0 - kd.ax.toNat) (y + j0 - kd.ay.toNat)

/-- R116, second row: on a 1 x 1 image under reflect, replicate or wrap every sample is SRCMEM byte 0, so that every pixel is
the sum of all raw weights times that byte, rounded and clamped. -/
def Obligations.OnePixelImageUsesTheWeightSum : Prop :=
  ∀ (s : State) (kd : KernelEntry) (x y : Int), s.imgdim = ⟨0#8, 0#8⟩ → s.cmd.border ≠ .constant →
    (s.out kd x y).toNat =
      sat8 (floorDiv (kd.rawSum * ((s.byteAt .srcmem 0).toNat : Int) + 128) 256)

/-- R148, R115 (g): a kernel whose raw weights sum to 0 gives 0 at every pixel of a flat image, with reflect, replicate or
wrap, with constant where FILL is the image's value, and with constant and another FILL wherever the kernel's window is
inside the image. -/
def Obligations.ZeroSumKernelIsZeroOnFlatImage : Prop :=
  ∀ (s : State) (kd : KernelEntry) (c : Byte) (x y : Int), kd.rawSum = 0 →
    (∀ a, a < s.width * s.height → s.byteAt .srcmem a = c) →
    (s.cmd.border ≠ .constant ∨ s.cmd.fill = c ∨
      (0 ≤ x - kd.ax.toNat ∧ x - kd.ax.toNat + kd.kw.toNat ≤ s.width ∧
        0 ≤ y - kd.ay.toNat ∧ y - kd.ay.toNat + kd.kh.toNat ≤ s.height)) →
    s.out kd x y = 0#8

/-! ## The sampler -/

/-- R121, with the maps of R122 to R124: under reflect, replicate and wrap the sample at any requested coordinates is the
source pixel at the coordinates mapped each on its own axis, in bounds or not; under constant it is FILL when either
coordinate is out of range and the source pixel otherwise. -/
def Obligations.SamplerMapsEachAxis : Prop :=
  ∀ (s : State) (px py : Int),
    (s.cmd.border = .reflect → s.sample px py = s.src (refl px s.width) (refl py s.height)) ∧
    (s.cmd.border = .replicate →
      s.sample px py = s.src (clampi px 0 (s.width - 1)) (clampi py 0 (s.height - 1))) ∧
    (s.cmd.border = .wrap → s.sample px py = s.src (floorMod px s.width) (floorMod py s.height)) ∧
    (s.cmd.border = .constant →
      (px < 0 ∨ s.width ≤ px ∨ py < 0 ∨ s.height ≤ py → s.sample px py = s.cmd.fill) ∧
      (0 ≤ px → px < s.width → 0 ≤ py → py < s.height → s.sample px py = s.src px py))

/-- R122: `refl` is mirroring across the nearest edge with the edge sample repeated, again and again until the result is
in range: it keeps a coordinate in range, sends `p < 0` where `-1 - p` goes and `p >= n` where `2n - 1 - p` goes. -/
def Obligations.ReflectIsRepeatedMirroring : Prop :=
  ∀ p n : Int, 1 ≤ n →
    (0 ≤ p → p < n → refl p n = p) ∧ (p < 0 → refl p n = refl (-1 - p) n) ∧
    (n ≤ p → refl p n = refl (2 * n - 1 - p) n)

/-- R127, the laws of the three coordinate maps: (a) the mapped coordinate is inside the image, so that the index of the
source byte is below `W*H`; (b) a coordinate in range is kept; (c) periods and symmetry, and clampi is monotone and, for
`n > 1`, has no period; (d) for `n = 1` all three are 0. -/
def Obligations.CoordinateMapLaws : Prop :=
  (∀ p n : Int, 1 ≤ n →
    (0 ≤ refl p n ∧ refl p n ≤ n - 1) ∧ (0 ≤ clampi p 0 (n - 1) ∧ clampi p 0 (n - 1) ≤ n - 1) ∧
    (0 ≤ floorMod p n ∧ floorMod p n ≤ n - 1) ∧
    (0 ≤ p → p ≤ n - 1 → refl p n = p ∧ clampi p 0 (n - 1) = p ∧ floorMod p n = p) ∧
    refl (p + 2 * n) n = refl p n ∧ refl (-1 - p) n = refl p n ∧ floorMod (p + n) n = floorMod p n ∧
    (∀ q, p ≤ q → clampi p 0 (n - 1) ≤ clampi q 0 (n - 1)) ∧
    (n = 1 → refl p n = 0 ∧ clampi p 0 (n - 1) = 0 ∧ floorMod p n = 0)) ∧
  (∀ n d : Int, 1 < n → 0 < d → ∃ p, clampi (p + d) 0 (n - 1) ≠ clampi p 0 (n - 1)) ∧
  (∀ (s : State) (px py : Int), 0 ≤ px → px ≤ s.width - 1 → 0 ≤ py → py ≤ s.height - 1 →
    (py * s.width + px).toNat < s.width * s.height)

/-! ## The registry -/

/-- R141, R143: the registry of the model (free weights, log 8) and the reference registry (general knowledge, log 16) are
well-formed. -/
def Obligations.RegistriesAreWellFormed : Prop := Config.krom.wf ∧ Config.kromRef.wf

/-- R146: a FILT command on a registered identifier writes to DSTMEM exactly what the CONV command of the same policy and
FILL writes from a state that differs only in KDIM, ANCHOR and KRAM, set to the entry's: at completion the two states
differ only in those operands and in the CMD latch. (That the engine steps when nothing else is due is log 2,
that a step is one pixel log 12.) -/
def Obligations.FiltEqualsConvOfItsEntry : Prop :=
  ∀ (b : Border) (fill fid : Byte) (e : KernelEntry) (m : Memory) (s s' : State),
    s.status.busy = false → s.agenda = [] → Config.krom fid = some e →
    s' = s.withConvOperands ⟨e.kw, e.kh⟩ ⟨e.ax, e.ay⟩ m →
    (∀ i j, i < e.kw.toNat → j < e.kh.toNat → s'.kramWeight (j * e.kw.toNat + i) = e.raw i j) →
    ∃ u u', exec (filtInstr b fill fid) s = .next u ∧ exec (convInstr b fill fid) s' = .next u' ∧
      nextWith (runSteps (s.width * s.height) u) fun t =>
        nextWith (runSteps (s.width * s.height) u') fun t' =>
          t'.dstmem = t.dstmem ∧ t.status.done = true ∧ t.cmd = filtLatch b fill fid ∧
          t' = { t.withConvOperands ⟨e.kw, e.kh⟩ ⟨e.ax, e.ay⟩ m with cmd := convLatch b fill fid }

/-- R147: FILT neither reads nor writes KDIM, ANCHOR and KRAM: with any others in their place, the command and every
engine step of its run do the same, and leave those in place. -/
def Obligations.FiltLeavesConvOperandsAlone : Prop :=
  ∀ (s t : State) (k : KDim) (a : Anchor) (m : Memory),
    (∀ b fill fid, exec (filtInstr b fill fid) s = .next t →
      exec (filtInstr b fill fid) (s.withConvOperands k a m) = .next (t.withConvOperands k a m) ∧
      t.kdim = s.kdim ∧ t.anchor = s.anchor ∧ t.kram = s.kram) ∧
    (s.cmd.sel = true → engineStep s = .next t →
      engineStep (s.withConvOperands k a m) = .next (t.withConvOperands k a m) ∧
      t.kdim = s.kdim ∧ t.anchor = s.anchor ∧ t.kram = s.kram)

/-! ## The host port -/

/-- R47: an access gets ERROR exactly when its size code is 3, it is misaligned, its address is unmapped, or it is a part
of a register; an ERROR access changes no state whatever and returns rdata 0; every other access is answered OKAY. -/
def Obligations.IllegalAccessGetsErrorAndDoesNothing : Prop :=
  ∀ (s : State) (t : Transaction) (rest : List Event), s.agenda = .host t :: rest →
    let n := 2 ^ t.size.toNat
    let a := t.addr.toNat
    let illegal := t.size = 3#2 ∨ a % n ≠ 0 ∨
      (0x0001C ≤ a ∧ a ≤ 0x003FF) ∨ (0x00600 ≤ a ∧ a ≤ 0x0FFFF) ∨ 0x30000 ≤ a ∨ (a ≤ 0x0001B ∧ n ≠ 4)
    (illegal → step s = .next ((s.withAgenda rest).respond .error 0#32)) ∧
    (¬illegal → ∀ u, step s = .next u → ∃ d, u.resp = some ⟨.okay, d⟩ ∧ (t.write = true → d = 0#32))

/-- R44, R48: a read of any address changes no register and no array, whatever the state; only the response and the
model's counter of free reads change. -/
def Obligations.ReadsChangeNothing : Prop :=
  ∀ (s : State) (t : Transaction) (rest : List Event), t.write = false → s.agenda = .host t :: rest →
    nextWith (step s) fun u => SameBlock s u ∧ u.agenda = rest

/-- R41, R42, R44, R49: a legal read at 0x00400 + a, 0x10000 + a or 0x20000 + a returns the bytes of KRAM, SRCMEM or DSTMEM
from index `a` on, little-endian, right-justified and zero-extended, except a read of DSTMEM while BUSY = 1; and so does
RDPIX (R81). -/
def Obligations.ArrayReadsAreLittleEndian : Prop :=
  (∀ (s : State) (name : ArrayName) (size : BitVec 2) (a : Nat) (rest : List Event), legalIndex name size a →
    (name = .dstmem → s.status.busy = false) → s.agenda = readEvent size (arrayBase name + a) :: rest →
    nextWith (step s) fun u => SameBlock s u ∧ u.agenda = rest ∧
      (size = 0#2 → u.resp = some ⟨.okay, 0#24 ++ s.byteAt name a⟩) ∧
      (size = 1#2 → u.resp = some ⟨.okay, 0#16 ++ s.byteAt name (a + 1) ++ s.byteAt name a⟩) ∧
      (size = 2#2 → u.resp = some ⟨.okay,
        s.byteAt name (a + 3) ++ s.byteAt name (a + 2) ++ s.byteAt name (a + 1) ++ s.byteAt name a⟩)) ∧
  (∀ (s : State) (a : Nat) (rest : List Event), (HostLine.rdpix a).wf = true → s.status.busy = false →
    s.agenda = lineEvent (.rdpix a) :: rest →
    nextWith (step s) fun u => u.resp = some ⟨.okay, 0#24 ++ s.byteAt .dstmem a⟩)

/-- R41, R42, R45, R60: a legal write at 0x00400 + a or 0x10000 + a of an idle block stores byte `k` of the data at index
`a + k` of KRAM or SRCMEM for each of its bytes; every other byte of the three arrays and every register keeps its value. -/
def Obligations.ArrayWritesStoreTheirBytes : Prop :=
  ∀ (s : State) (name : ArrayName) (size : BitVec 2) (a : Nat) (v : Word) (rest : List Event), legalIndex name size a →
    name ≠ .dstmem → s.status.busy = false → s.agenda = writeEvent size (arrayBase name + a) v.toNat :: rest →
    nextWith (step s) fun u =>
      (∀ k, k < 2 ^ size.toNat → u.byteAt name (a + k) = v.extractLsb' (8 * k) 8) ∧
      (∀ name' b, (name' ≠ name ∨ b < a ∨ a + 2 ^ size.toNat ≤ b) → u.byteAt name' b = s.byteAt name' b) ∧
      u.cmd = s.cmd ∧ u.status = s.status ∧ u.ctrl = s.ctrl ∧ u.imgdim = s.imgdim ∧ u.kdim = s.kdim ∧
      u.anchor = s.anchor ∧ u.ox = s.ox ∧ u.oy = s.oy ∧ u.agenda = rest ∧ u.resp = some ⟨.okay, 0#32⟩

/-- R50, R41, the BUSY lock: while BUSY = 1 a write to CMD (0x00004), IMGDIM (0x00010), KDIM (0x00014), ANCHOR (0x00018),
KRAM (0x00400 + a) or SRCMEM (0x10000 + a) is answered OKAY and changes nothing; CTRL (0x0000C) and STATUS (0x00008) are
not locked. -/
def Obligations.BusyLockDropsWrites : Prop :=
  ∀ (s : State) (v : Word) (rest : List Event), s.status.busy = true →
    (∀ addr, addr = 0x00004 ∨ addr = 0x00010 ∨ addr = 0x00014 ∨ addr = 0x00018 →
      s.agenda = writeEvent 2#2 addr v.toNat :: rest → step s = .next ((s.withAgenda rest).respond .okay 0#32)) ∧
    (∀ name size a, name ≠ .dstmem → legalIndex name size a →
      s.agenda = writeEvent size (arrayBase name + a) v.toNat :: rest →
      step s = .next ((s.withAgenda rest).respond .okay 0#32)) ∧
    (s.agenda = writeEvent 2#2 0x0000C v.toNat :: rest →
      nextWith (step s) fun u => u.ctrl.ie = v.getLsbD 0 ∧ u.resp = some ⟨.okay, 0#32⟩) ∧
    (s.agenda = writeEvent 2#2 0x00008 v.toNat :: rest →
      nextWith (step s) fun u => u.status = s.status.writeOneToClear v ∧ u.resp = some ⟨.okay, 0#32⟩)

/-- R51: a legal host write to a DSTMEM address is ignored with response OKAY, whether or not BUSY = 1. -/
def Obligations.DstmemIgnoresHostWrites : Prop :=
  ∀ (s : State) (t : Transaction) (rest : List Event), t.write = true → s.agenda = .host t :: rest →
    0x20000 ≤ t.addr.toNat → t.addr.toNat ≤ 0x2FFFF → t.size ≠ 3#2 → t.addr.toNat % 2 ^ t.size.toNat = 0 →
    step s = .next ((s.withAgenda rest).respond .okay 0#32)

/-- R52: a legal read at 0x20000 + a while BUSY = 1 returns OKAY and a value of the requested size, whatever value the
machine draws, and changes nothing of the block; the next such read draws another. The counter of draws is the model's
(log 7). -/
def Obligations.DstmemReadsWhileBusyAreFree : Prop :=
  ∀ (s : State) (size : BitVec 2) (a : Nat) (rest : List Event), s.status.busy = true → legalIndex .dstmem size a →
    s.agenda = readEvent size (0x20000 + a) :: rest →
    nextWith (step s) fun u =>
      (∃ d : Word, u.resp = some ⟨.okay, d⟩ ∧ d.toNat < 2 ^ (8 * 2 ^ size.toNat) ∧
        d.toNat = (Config.freeRead s.draws).toNat % 2 ^ (8 * 2 ^ size.toNat)) ∧
      u.draws = s.draws + 1 ∧ SameBlock s u

/-! ## Registers and flags -/

/-- R11, R15 to R18: a word written to IMGDIM, KDIM or ANCHOR of an idle block, or to CTRL of any, reads back with the bits
of its fields, and 0 in every reserved bit; ID reads 0x43324401 whatever is written to it (R12). -/
def Obligations.RegistersReadBackTheirFields : Prop :=
  ∀ (s : State) (v : Word) (rest : List Event),
    (s.status.busy = false →
      (s.agenda = writeEvent 2#2 0x00010 v.toNat :: readEvent 2#2 0x00010 :: rest →
        nextWith (runSteps 2 s) fun t => t.resp = some ⟨.okay, v &&& 0x0000FFFF#32⟩) ∧
      (s.agenda = writeEvent 2#2 0x00014 v.toNat :: readEvent 2#2 0x00014 :: rest →
        nextWith (runSteps 2 s) fun t => t.resp = some ⟨.okay, v &&& 0x00000F0F#32⟩) ∧
      (s.agenda = writeEvent 2#2 0x00018 v.toNat :: readEvent 2#2 0x00018 :: rest →
        nextWith (runSteps 2 s) fun t => t.resp = some ⟨.okay, v &&& 0x00000F0F#32⟩)) ∧
    (s.agenda = writeEvent 2#2 0x0000C v.toNat :: readEvent 2#2 0x0000C :: rest →
      nextWith (runSteps 2 s) fun t => t.resp = some ⟨.okay, v &&& 0x00000001#32⟩) ∧
    (s.agenda = writeEvent 2#2 0x00000 v.toNat :: readEvent 2#2 0x00000 :: rest →
      nextWith (runSteps 2 s) fun t => t.resp = some ⟨.okay, 0x43324401#32⟩)

/-- R45, R19: the registers do not alias one another. A write to IMGDIM, KDIM or ANCHOR of an idle block, or to CTRL of any,
stores the fields of that register and leaves every other register, STATUS, the CMD latch, the scan position and the
arrays as they were; a write to ID leaves everything (R12). -/
def Obligations.RegisterWritesTouchOnlyTheirRegister : Prop :=
  ∀ (s : State) (v : Word) (rest : List Event),
    (s.status.busy = false →
      (s.agenda = writeEvent 2#2 0x00010 v.toNat :: rest →
        step s = .next { (s.withAgenda rest).respond .okay 0#32 with
          imgdim := ⟨v.extractLsb' 0 8, v.extractLsb' 8 8⟩ }) ∧
      (s.agenda = writeEvent 2#2 0x00014 v.toNat :: rest →
        step s = .next { (s.withAgenda rest).respond .okay 0#32 with
          kdim := ⟨v.extractLsb' 0 4, v.extractLsb' 8 4⟩ }) ∧
      (s.agenda = writeEvent 2#2 0x00018 v.toNat :: rest →
        step s = .next { (s.withAgenda rest).respond .okay 0#32 with
          anchor := ⟨v.extractLsb' 0 4, v.extractLsb' 8 4⟩ })) ∧
    (s.agenda = writeEvent 2#2 0x0000C v.toNat :: rest →
      step s = .next { (s.withAgenda rest).respond .okay 0#32 with ctrl := ⟨v.getLsbD 0⟩ }) ∧
    (s.agenda = writeEvent 2#2 0x00000 v.toNat :: rest →
      step s = .next ((s.withAgenda rest).respond .okay 0#32))

/-- R14, the word STATUS reads as: BUSY in bit 0, DONE in bit 1, ERR in bit 2, ERRCODE in bits 6:4, every other bit 0. -/
def Obligations.StatusReadsItsFlags : Prop :=
  ∀ (s : State) (rest : List Event), s.agenda = readEvent 2#2 0x00008 :: rest →
    nextWith (step s) fun t => ∃ d : Word, t.resp = some ⟨.okay, d⟩ ∧
      d.getLsbD 0 = s.status.busy ∧ d.getLsbD 1 = s.status.done ∧ d.getLsbD 2 = s.status.err ∧
      d.extractLsb' 4 3 = s.status.errcode ∧ d &&& 0xFFFFFF88#32 = 0#32

/-- R14, R169, a write to STATUS, in every state: bit 1 clears DONE, bit 2 clears ERR and ERRCODE, every other bit of the
word is ignored, BUSY and everything else stays. -/
def Obligations.StatusWriteOneToClear : Prop :=
  ∀ (s : State) (v : Word) (rest : List Event), s.agenda = writeEvent 2#2 0x00008 v.toNat :: rest →
    nextWith (step s) fun t =>
      t.status.busy = s.status.busy ∧ t.status.done = (s.status.done && !v.getLsbD 1) ∧
      t.status.err = (s.status.err && !v.getLsbD 2) ∧
      t.status.errcode = (if v.getLsbD 2 then 0#3 else s.status.errcode) ∧
      SameOperands s t ∧ t.ctrl = s.ctrl ∧ t.dstmem = s.dstmem ∧ t.ox = s.ox ∧ t.oy = s.oy ∧ t.agenda = rest

/-- R24, over the whole machine, flag by flag. BUSY is set only by the acceptance of a command and cleared only by the engine
or a reset. DONE is set only by an engine step of a busy engine, and cleared only by acceptance, by a write to STATUS with
bit 1 set, or by a reset. ERR is set only by acceptance, and cleared only by acceptance, by a write to STATUS with bit 2
set, or by a reset; and ERRCODE changes only so. (That the engine steps when nothing else is due is log 2.) -/
def Obligations.FlagsChangeOnlyAsListed : Prop :=
  ∀ s t : State, step s = .next t →
    (s.status.busy = false → t.status.busy = true → s.accepting) ∧
    (s.status.busy = true → t.status.busy = false → s.engineDue ∨ s.resetting) ∧
    (s.status.done = false → t.status.done = true →
      s.status.busy = true ∧ t.status.busy = false ∧ s.engineDue) ∧
    (s.status.done = true → t.status.done = false → s.accepting ∨ s.acknowledging 1 ∨ s.resetting) ∧
    (s.status.err = false → t.status.err = true → s.accepting) ∧
    (s.status.err = true → t.status.err = false → s.accepting ∨ s.acknowledging 2 ∨ s.resetting) ∧
    (t.status.errcode ≠ s.status.errcode → s.accepting ∨ s.acknowledging 2 ∨ s.resetting)

/-- R25, R168, the `irq` line: with IE = 1, a command that fails raises it in the step of the CMD write, a command whose
run starts lowers it, an engine step that completes a run raises it, acknowledging both flags lowers it; with IE = 0 it
is low. -/
def Obligations.IrqFollowsTheFlags : Prop :=
  ∀ s : State,
    (s.ctrl.ie = false → s.irq = false) ∧
    (s.ctrl.ie = true → s.status.busy = false → ∀ i t, i ≠ .nop → exec i s = .next t →
      (t.irq = true ↔ t.status.err = true) ∧ (t.irq = false ↔ t.status.busy = true)) ∧
    (s.ctrl.ie = true → s.status.busy = true → ∀ t, engineStep s = .next t → t.status.busy = false → t.irq = true) ∧
    (s.acknowledge 0x00000006#32).irq = false

/-! ## Reset, invariants, isolation -/

/-- R190, R30, a reset at any time, and a power-on, which is one: every register has its reset value, the engine is idle and
`irq` is low. After a reset KRAM and SRCMEM are unchanged, and DSTMEM is unchanged but, where the reset cuts a run, for
the bytes below `W*H`, which are unspecified; after a power-on every array byte is unspecified, and none is stated. The
scan position is don't-care and not stated. That the bytes below `W*H` are drawn anew is log 6, that reset is one step
log 18, that power-on is an event log 19. -/
def Obligations.ResetStepLeavesResetRegisters : Prop :=
  ∀ (s : State) (rest : List Event), s.agenda = .reset :: rest ∨ s.agenda = .powerOn :: rest →
    nextWith (step s) fun t =>
      t.cmd.word = 0#32 ∧ t.status.word = 0#32 ∧ t.ctrl.word = 0#32 ∧ t.imgdim.word = 0#32 ∧ t.kdim.word = 0#32 ∧
      t.anchor.word = 0#32 ∧ t.irq = false ∧ t.agenda = rest ∧
      (s.agenda = .reset :: rest →
        (∀ a, t.byteAt .kram a = s.byteAt .kram a ∧ t.byteAt .srcmem a = s.byteAt .srcmem a) ∧
        (∀ a, s.status.busy = false ∨ s.width * s.height ≤ a → t.byteAt .dstmem a = s.byteAt .dstmem a))

/-- R191: after reset the block is idle with no flag set, describes a 1 x 1 image and a 0 x 0 kernel, and has no interrupt
enabled; every CONV written now fails with InvalidKernel, every FILT with a registered identifier starts a run on the
1 x 1 image, and without a host write nothing happens (that a step with nothing due changes nothing is log 2). -/
def Obligations.StateAfterReset : Prop :=
  State.reset.status.word = 0#32 ∧ State.reset.ctrl.ie = false ∧ State.reset.width = 1 ∧ State.reset.height = 1 ∧
  State.reset.kdim.word = 0#32 ∧ step State.reset = .next State.reset ∧
  ∀ (b : Border) (fill fid : Byte),
    exec (convInstr b fill fid) State.reset =
      .next (State.reset.failedWith (convLatch b fill fid) .invalidKernel) ∧
    (fid.toNat < 8 → exec (filtInstr b fill fid) State.reset = .next (State.reset.running (filtLatch b fill fid)))

/-- The invariant holds at reset (R31, R30); that the arrays list nothing there is log 5. -/
def Obligations.InvariantHoldsAtReset : Prop := State.reset.Inv

/-- R31 and the canonical form of the arrays, as an invariant: every step, whatever the event, from every state that
meets it leads to a state that meets it. -/
def Obligations.EveryStepKeepsTheInvariant : Prop :=
  ∀ s t : State, s.Inv → step s = .next t → t.Inv

/-- R172: no stuck states and no hangs: in every state that meets the invariant, whatever the next event, a step answers
a next state; and every host transaction of it gets a response. (The fault the invariant rules out is log 11.) -/
def Obligations.NoStuckState : Prop :=
  ∀ s : State, s.Inv → nextWith (step s) fun t => ∀ q rest, s.agenda = .host q :: rest → t.resp.isSome = true

/-- R31 (d): while BUSY = 1 no step but a reset or a power-on changes the CMD latch, IMGDIM, KDIM, ANCHOR, KRAM or
SRCMEM. -/
def Obligations.OperandsAreFrozenDuringARun : Prop :=
  ∀ s t : State, s.status.busy = true → step s = .next t →
    (∀ rest, s.agenda ≠ .reset :: rest) → (∀ rest, s.agenda ≠ .powerOn :: rest) → SameOperands s t

/-- R22, R51, over the whole machine: a byte of DSTMEM changes only in an engine step of a running engine, and then it is
a byte below `W*H`, or in a reset that cuts a run (also below `W*H`), or at power-on (an event of the model, log 19). -/
def Obligations.DstmemHasOneWriter : Prop :=
  ∀ (s t : State) (a : Nat), s.Inv → step s = .next t → t.byteAt .dstmem a ≠ s.byteAt .dstmem a →
    (∃ rest, s.agenda = .powerOn :: rest) ∨
    (s.status.busy = true ∧ a < s.width * s.height ∧
      (s.agenda = [] ∨ ∃ rest, s.agenda = .engine :: rest ∨ s.agenda = .reset :: rest))

/-- R20, R21, over the whole machine: KRAM and SRCMEM change only in a host write to an idle block or at power-on; no
command, no engine step and no reset changes them. (Power-on as an event is log 19.) -/
def Obligations.InputArraysChangeOnlyByHostWrites : Prop :=
  ∀ (s t : State), step s = .next t → (t.kram ≠ s.kram ∨ t.srcmem ≠ s.srcmem) →
    (∃ rest, s.agenda = .powerOn :: rest) ∨
    (s.status.busy = false ∧ ∃ q rest, s.agenda = .host q :: rest ∧ q.write = true)

/-- R80, R205, `WAIT`: the host's polling of STATUS ends: from a state that meets the invariant with the engine running,
after some number of steps the POLL is done, BUSY is 0 and DONE is 1. (How many reads it takes rests on log 3; that it
ends does not.) -/
def Obligations.WaitEnds : Prop :=
  ∀ (s : State), s.Inv → s.status.busy = true → s.agenda = [lineEvent .wait] →
    ∃ k, nextWith (runSteps k s) fun t => t.agenda = [] ∧ t.status.busy = false ∧ t.status.done = true
end

