-- ==== Sys2Proof/Laws/Arith.lean ====
section
/-! SUPPORT. The laws of the integer primitives (R5), of finite sums, and of the three coordinate maps (R127). -/

namespace Sys2Proof.Machine

theorem floorMod_eq_emod (a n : Int) : floorMod a n = a % n := by
  rw [floorMod, floorDiv, Int.emod_def]

theorem floorMod_nonneg (a : Int) {n : Int} (h : 0 < n) : 0 ≤ floorMod a n := by
  rw [floorMod_eq_emod]
  exact Int.emod_nonneg a (by omega)

theorem floorMod_lt (a : Int) {n : Int} (h : 0 < n) : floorMod a n < n := by
  rw [floorMod_eq_emod]
  exact Int.emod_lt_of_pos a h

theorem floorMod_of_mem {a n : Int} (h0 : 0 ≤ a) (h1 : a < n) : floorMod a n = a := by
  rw [floorMod_eq_emod]
  exact Int.emod_eq_of_lt h0 h1

@[simp] theorem floorMod_add_self (a n : Int) : floorMod (a + n) n = floorMod a n := by
  simp [floorMod_eq_emod]

theorem sumBelow_congr {n : Nat} {f g : Nat → Int} (h : ∀ k, k < n → f k = g k) : sumBelow n f = sumBelow n g := by
  induction n with
  | zero => rfl
  | succ n ih =>
    rw [sumBelow, sumBelow, ih fun k hk => h k (by omega), h n (by omega)]

theorem sumBelow_mul_right (n : Nat) (f : Nat → Int) (c : Int) : sumBelow n (fun k => f k * c) = sumBelow n f * c := by
  induction n with
  | zero => simp [sumBelow]
  | succ n ih => simp [sumBelow, ih, Int.add_mul]

/-- A sum with one term that is not 0 is that term. -/
theorem sumBelow_single {n k : Nat} (f : Nat → Int) (hk : k < n) (h : ∀ i, i < n → i ≠ k → f i = 0) :
    sumBelow n f = f k := by
  have z : ∀ m, (∀ i, i < m → f i = 0) → sumBelow m f = 0 := by
    intro m hm
    induction m with
    | zero => rfl
    | succ m ih => simp [sumBelow, ih fun i hi => hm i (by omega), hm m (by omega)]
  induction n with
  | zero => omega
  | succ n ih =>
    simp only [sumBelow]
    by_cases e : n = k
    · subst e
      simp [z n fun i hi => h i (by omega) (by omega)]
    · simp [ih (by omega) fun i hi => h i (by omega), h n (by omega) e]

/-- A sum whose terms lie between two bounds lies between `n` times each. -/
theorem sumBelow_bounds {n : Nat} {f : Nat → Int} {lo hi : Int} (h : ∀ k, k < n → lo ≤ f k ∧ f k ≤ hi) :
    n * lo ≤ sumBelow n f ∧ sumBelow n f ≤ n * hi := by
  induction n with
  | zero => simp [sumBelow]
  | succ n ih =>
    have h1 := ih fun k hk => h k (by omega)
    have h2 := h n (by omega)
    rw [sumBelow]
    push_cast
    constructor
    · calc ((n : Int) + 1) * lo = n * lo + lo := by ring
        _ ≤ _ := by omega
    · calc _ ≤ (n : Int) * hi + hi := by omega
        _ = ((n : Int) + 1) * hi := by ring

theorem clampi_mem (a : Int) {lo hi : Int} (h : lo ≤ hi) : lo ≤ clampi a lo hi ∧ clampi a lo hi ≤ hi := by
  unfold clampi
  split
  · omega
  · split <;> omega

theorem clampi_of_mem {a lo hi : Int} (h0 : lo ≤ a) (h1 : a ≤ hi) : clampi a lo hi = a := by
  unfold clampi
  split
  · omega
  · split <;> omega

theorem refl_mem (p : Int) {n : Int} (h : 1 ≤ n) : 0 ≤ refl p n ∧ refl p n ≤ n - 1 := by
  have h0 := floorMod_nonneg p (n := 2 * n) (by omega)
  have h1 := floorMod_lt p (n := 2 * n) (by omega)
  unfold refl
  simp only
  split <;> omega

theorem refl_of_mem {p n : Int} (h0 : 0 ≤ p) (h1 : p ≤ n - 1) : refl p n = p := by
  have h2 : floorMod p (2 * n) = p := floorMod_of_mem h0 (by omega)
  unfold refl
  simp only [h2]
  split <;> omega

theorem refl_add_period (p n : Int) : refl (p + 2 * n) n = refl p n := by
  simp [refl]

/-- The mirror between index -1 and index 0 (R122, R127 (c)). -/
theorem refl_mirror (p : Int) {n : Int} (h : 1 ≤ n) : refl (-1 - p) n = refl p n := by
  have h0 := floorMod_nonneg p (n := 2 * n) (by omega)
  have h1 := floorMod_lt p (n := 2 * n) (by omega)
  have h2 : floorMod (-1 - p) (2 * n) = 2 * n - 1 - floorMod p (2 * n) := by
    have e : (-1 - p) = (2 * n - 1 - floorMod p (2 * n)) + (2 * n) * (-(floorDiv p (2 * n)) - 1) := by
      simp only [floorMod]
      ring
    rw [floorMod_eq_emod, e, Int.add_mul_emod_self_left, Int.emod_eq_of_lt (by omega) (by omega)]
  unfold refl
  simp only [h2]
  split <;> split <;> omega

end Sys2Proof.Machine
end

