-- ==== Sys2Proof/Laws/Decode.lean ====
section
/-! SUPPORT. The fields of an encoded command word, and the bytes of a word. -/

namespace Sys2Proof

@[simp] theorem Border.ofCode_code (b : Border) : Border.ofCode b.code = b := by
  cases b <;> decide

theorem Border.code_ofCode (c : BitVec 2) : (Border.ofCode c).code = c := by
  revert c
  decide

section formatC

variable (sel : Bool) (b : Border) (fill fid : Byte)

@[simp] theorem goField_formatC : goField (formatC sel b fill fid) = true := by
  simp only [goField, formatC, BitVec.getLsbD_append]
  simp

@[simp] theorem selField_formatC : selField (formatC sel b fill fid) = sel := by
  simp only [selField, formatC, BitVec.getLsbD_append]
  simp

@[simp] theorem borderField_formatC : borderField (formatC sel b fill fid) = b.code := by
  apply BitVec.eq_of_getLsbD_eq
  intro i hi
  simp only [borderField, formatC, BitVec.getLsbD_extractLsb', BitVec.getLsbD_append]
  have : i = 0 ∨ i = 1 := by omega
  rcases this with rfl | rfl <;> simp

@[simp] theorem fillField_formatC : fillField (formatC sel b fill fid) = fill := by
  apply BitVec.eq_of_getLsbD_eq
  intro i hi
  have h0 : ¬8 + i < 1 := by omega
  have h1 : ¬8 + i - 1 < 1 := by omega
  have h2 : ¬8 + i - 1 - 1 < 2 := by omega
  have h3 : ¬8 + i - 1 - 1 - 2 < 4 := by omega
  have h5 : 8 + i - 1 - 1 - 2 - 4 = i := by omega
  simp only [fillField, formatC, BitVec.getLsbD_extractLsb', BitVec.getLsbD_append, h0, h1, h2, h3, h5, if_false,
    if_true, hi, decide_true, Bool.true_and]

@[simp] theorem fidField_formatC : fidField (formatC sel b fill fid) = fid := by
  apply BitVec.eq_of_getLsbD_eq
  intro i hi
  have h0 : ¬16 + i < 1 := by omega
  have h1 : ¬16 + i - 1 < 1 := by omega
  have h2 : ¬16 + i - 1 - 1 < 2 := by omega
  have h3 : ¬16 + i - 1 - 1 - 2 < 4 := by omega
  have h4 : ¬16 + i - 1 - 1 - 2 - 4 < 8 := by omega
  have h6 : 16 + i - 1 - 1 - 2 - 4 - 8 = i := by omega
  simp only [fidField, formatC, BitVec.getLsbD_extractLsb', BitVec.getLsbD_append, h0, h1, h2, h3, h4, h6, if_false,
    if_true, hi, decide_true, Bool.true_and]

end formatC

/-- A word with GO = 0 is NOP (R74, R114). -/
theorem decodeWord_nop {v : Word} (h : v.getLsbD 0 = false) : decodeWord v = .nop := by
  simp only [decodeWord, goField, h]

/-- The bytes of a word, put together again, are the word. -/
theorem wordOfBytes_bytes (w : Word) :
    wordOfBytes (w.extractLsb' 0 8) (w.extractLsb' 8 8) (w.extractLsb' 16 8) (w.extractLsb' 24 8) = w := by
  apply BitVec.eq_of_getLsbD_eq
  intro i hi
  simp only [wordOfBytes, BitVec.getLsbD_append, BitVec.getLsbD_extractLsb']
  by_cases h0 : i < 8
  · simp [h0]
  · by_cases h1 : i < 16
    · have a : i - 8 < 8 := by omega
      have e : 8 + (i - 8) = i := by omega
      simp [h0, a, e]
    · by_cases h2 : i < 24
      · have a : ¬i - 8 < 8 := by omega
        have b : i - 8 - 8 < 8 := by omega
        have e : 16 + (i - 8 - 8) = i := by omega
        simp [h0, a, b, e]
      · have a : ¬i - 8 < 8 := by omega
        have b : ¬i - 8 - 8 < 8 := by omega
        have c : i - 8 - 8 - 8 < 8 := by omega
        have e : 24 + (i - 8 - 8 - 8) = i := by omega
        simp [h0, a, b, c, e]

/-- Decoding the four bytes of a word reads the word, and leaves what follows. -/
theorem decode_bytesOfWord (w : Word) (rest : List Byte) :
    decode (bytesOfWord w ++ rest) = .ok (decodeWord w, rest) := by
  simp [bytesOfWord, decode, wordOfBytes_bytes]

end Sys2Proof
end

