-- ==== Sys2Proof/Laws/Memory.lean ====
section
/-! SUPPORT. The laws of one array: a read after a write, what a write and a redraw leave alone, and that every operation
keeps the canonical form. -/

namespace Sys2Proof.Machine

@[simp] theorem lookupCell_setCell_same (cells : List Host.Cell) (a : Nat) (b : Byte) :
    lookupCell (setCell cells a b) a = some b := by
  induction cells with
  | nil => simp [setCell, lookupCell]
  | cons c rest ih =>
    obtain ⟨k, v⟩ := c
    by_cases hlt : a < k
    · simp [setCell, lookupCell, hlt]
    · by_cases heq : a = k
      · simp [setCell, lookupCell, heq]
      · simp [setCell, lookupCell, hlt, heq, Ne.symm heq, ih]

theorem lookupCell_setCell_ne (cells : List Host.Cell) {a a' : Nat} (b : Byte) (h : a' ≠ a) :
    lookupCell (setCell cells a b) a' = lookupCell cells a' := by
  induction cells with
  | nil => simp [setCell, lookupCell, Ne.symm h]
  | cons c rest ih =>
    obtain ⟨k, v⟩ := c
    by_cases hlt : a < k
    · simp [setCell, lookupCell, hlt, Ne.symm h]
    · by_cases heq : a = k
      · subst heq
        simp [setCell, lookupCell, Ne.symm h]
      · simp [setCell, lookupCell, hlt, heq, ih]

theorem lookupCell_dropBelow (cells : List Host.Cell) (n a : Nat) :
    lookupCell (dropBelow n cells) a = if n ≤ a then lookupCell cells a else none := by
  induction cells with
  | nil => simp [dropBelow, lookupCell]
  | cons c rest ih =>
    obtain ⟨k, v⟩ := c
    simp only [dropBelow, List.filter_cons] at ih ⊢
    by_cases hk : n ≤ k
    · simp only [hk, decide_true, if_true, lookupCell, ih]
      by_cases hka : k = a
      · subst hka; simp [hk]
      · simp [hka]
    · simp only [hk, decide_false, Bool.false_eq_true, if_false, lookupCell, ih]
      by_cases hka : k = a
      · subst hka; simp [hk]
      · simp [hka]

@[simp] theorem Memory.byteAt_setByte_same (name : ArrayName) (m : Memory) (a : Nat) (b : Byte) :
    (m.setByte a b).byteAt name a = b := by
  simp [Memory.setByte, Memory.byteAt]

theorem Memory.byteAt_setByte_ne (name : ArrayName) (m : Memory) {a a' : Nat} (b : Byte) (h : a' ≠ a) :
    (m.setByte a b).byteAt name a' = m.byteAt name a' := by
  simp [Memory.setByte, Memory.byteAt, Memory.unlisted, lookupCell_setCell_ne _ _ h]

/-- The bytes after a little-endian write: the written ones, and every other as it was. -/
theorem Memory.byteAt_setBytes (name : ArrayName) (m : Memory) (a : Nat) (v : Word) (n a' : Nat) :
    (m.setBytes a v n).byteAt name a' =
      if a ≤ a' ∧ a' < a + n then byteOf v (a' - a) else m.byteAt name a' := by
  induction n with
  | zero =>
    have : ¬(a ≤ a' ∧ a' < a + 0) := by omega
    simp only [Memory.setBytes, this, if_false]
  | succ n ih =>
    simp only [Memory.setBytes]
    by_cases h : a' = a + n
    · subst h
      have : a ≤ a + n ∧ a + n < a + (n + 1) := by omega
      simp [this]
    · rw [Memory.byteAt_setByte_ne _ _ _ h, ih]
      by_cases h1 : a ≤ a' ∧ a' < a + n
      · have : a ≤ a' ∧ a' < a + (n + 1) := by omega
        simp only [h1, this, and_self, if_true]
      · have : ¬(a ≤ a' ∧ a' < a + (n + 1)) := by omega
        simp only [h1, this, if_false]

/-- The little-endian word of 1, 2 and 4 bytes as a concatenation (R42). -/
theorem Memory.le_eq_append (name : ArrayName) (m : Memory) (a : Nat) :
    m.le name a 1 = 0#24 ++ m.byteAt name a ∧
      m.le name a 2 = 0#16 ++ m.byteAt name (a + 1) ++ m.byteAt name a ∧
      m.le name a 4 =
        m.byteAt name (a + 3) ++ m.byteAt name (a + 2) ++ m.byteAt name (a + 1) ++ m.byteAt name a := by
  have app : ∀ {n k : Nat} (u : BitVec n) (v : BitVec k), (u ++ v).toNat = u.toNat * 2 ^ k + v.toNat := by
    intro n k u v
    rw [BitVec.toNat_append, Nat.shiftLeft_eq, Nat.mul_comm, Nat.two_pow_add_eq_or_of_lt v.isLt]
  have h0 := (m.byteAt name a).isLt
  have h1 := (m.byteAt name (a + 1)).isLt
  have h2 := (m.byteAt name (a + 2)).isLt
  have h3 := (m.byteAt name (a + 3)).isLt
  refine ⟨?_, ?_, ?_⟩ <;> apply BitVec.eq_of_toNat_eq <;>
    simp only [app, Memory.le, leValue, BitVec.toNat_ofNat, Nat.add_zero, Nat.zero_add, Nat.mul_zero, Nat.reduceAdd] <;>
    omega

/-- A redraw of the bytes below `n` leaves every byte at or above `n` as it was. -/
theorem Memory.byteAt_redraw_ge (name : ArrayName) (m : Memory) {n a : Nat} (h : n ≤ a) :
    (m.redraw n).byteAt name a = m.byteAt name a := by
  have : ¬a < n := by omega
  simp [Memory.redraw, Memory.byteAt, Memory.unlisted, lookupCell_dropBelow, drawOf, h, this]

/-- A redrawn byte is the free value of a draw of its own. -/
theorem Memory.byteAt_redraw_lt (name : ArrayName) (m : Memory) {n a : Nat} (h : a < n) :
    (m.redraw n).byteAt name a = Config.freeByte name (m.redraws.length + 1) a := by
  have : ¬n ≤ a := by omega
  simp [Memory.redraw, Memory.byteAt, Memory.unlisted, lookupCell_dropBelow, drawOf, h, this]

theorem mem_setCell {cells : List Host.Cell} {a : Nat} {b : Byte} {c : Host.Cell} (h : c ∈ setCell cells a b) :
    c = (a, b) ∨ c ∈ cells := by
  induction cells with
  | nil => simpa [setCell] using h
  | cons d rest ih =>
    obtain ⟨k, v⟩ := d
    unfold setCell at h
    split at h
    · simpa using h
    · split at h
      · simp only [List.mem_cons] at h ⊢
        tauto
      · simp only [List.mem_cons] at h ⊢
        rcases h with h | h
        · tauto
        · have := ih h
          tauto

theorem setCell_rising {cells : List Host.Cell} (a : Nat) (b : Byte) (h : cells.Pairwise fun c d => c.1 < d.1) :
    (setCell cells a b).Pairwise fun c d => c.1 < d.1 := by
  induction cells with
  | nil => simp [setCell]
  | cons d rest ih =>
    obtain ⟨k, v⟩ := d
    obtain ⟨hk, hrest⟩ := List.pairwise_cons.mp h
    unfold setCell
    split
    · rename_i hlt
      refine List.pairwise_cons.mpr ⟨fun c hc => ?_, h⟩
      rcases List.mem_cons.mp hc with rfl | hc
      · exact hlt
      · exact Nat.lt_trans hlt (hk c hc)
    · rename_i hlt
      split
      · rename_i heq
        subst heq
        exact List.pairwise_cons.mpr ⟨hk, hrest⟩
      · rename_i heq
        refine List.pairwise_cons.mpr ⟨fun c hc => ?_, ih hrest⟩
        rcases mem_setCell hc with rfl | hc
        · show k < a
          omega
        · exact hk c hc

theorem Memory.wf_empty (size : Nat) : Memory.empty.wf size := by
  exact ⟨List.Pairwise.nil, by simp [Memory.empty]⟩

theorem Memory.wf_setByte {size : Nat} {m : Memory} {a : Nat} (b : Byte) (h : m.wf size) (ha : a < size) :
    (m.setByte a b).wf size := by
  refine ⟨setCell_rising a b h.1, fun c hc => ?_⟩
  rcases mem_setCell hc with rfl | hc
  · exact ha
  · exact h.2 c hc

theorem Memory.wf_setBytes {size : Nat} {m : Memory} {a : Nat} (v : Word) {n : Nat} (h : m.wf size)
    (ha : a + n ≤ size) : (m.setBytes a v n).wf size := by
  induction n with
  | zero => exact h
  | succ n ih => exact Memory.wf_setByte _ (ih (by omega)) (by omega)

theorem Memory.wf_redraw {size : Nat} {m : Memory} (n : Nat) (h : m.wf size) : (m.redraw n).wf size :=
  ⟨h.1.filter _, fun c hc => h.2 c (List.mem_filter.mp hc).1⟩

end Sys2Proof.Machine
end

