-- ==== Sys2Proof/Laws/State.lean ====
section
/-! SUPPORT. What each named update of the state leaves in each field, all true by rfl. -/

namespace Sys2Proof.Machine

variable (s : State)

@[simp] theorem State.respond_cmd (r : Resp) (d : Word) : (s.respond r d).cmd = s.cmd := rfl
@[simp] theorem State.respond_status (r : Resp) (d : Word) : (s.respond r d).status = s.status := rfl
@[simp] theorem State.respond_ctrl (r : Resp) (d : Word) : (s.respond r d).ctrl = s.ctrl := rfl
@[simp] theorem State.respond_imgdim (r : Resp) (d : Word) : (s.respond r d).imgdim = s.imgdim := rfl
@[simp] theorem State.respond_kdim (r : Resp) (d : Word) : (s.respond r d).kdim = s.kdim := rfl
@[simp] theorem State.respond_anchor (r : Resp) (d : Word) : (s.respond r d).anchor = s.anchor := rfl
@[simp] theorem State.respond_kram (r : Resp) (d : Word) : (s.respond r d).kram = s.kram := rfl
@[simp] theorem State.respond_srcmem (r : Resp) (d : Word) : (s.respond r d).srcmem = s.srcmem := rfl
@[simp] theorem State.respond_dstmem (r : Resp) (d : Word) : (s.respond r d).dstmem = s.dstmem := rfl
@[simp] theorem State.respond_ox (r : Resp) (d : Word) : (s.respond r d).ox = s.ox := rfl
@[simp] theorem State.respond_oy (r : Resp) (d : Word) : (s.respond r d).oy = s.oy := rfl
@[simp] theorem State.respond_agenda (r : Resp) (d : Word) : (s.respond r d).agenda = s.agenda := rfl
@[simp] theorem State.respond_resp (r : Resp) (d : Word) : (s.respond r d).resp = some ⟨r, d⟩ := rfl
@[simp] theorem State.respond_draws (r : Resp) (d : Word) : (s.respond r d).draws = s.draws := rfl

@[simp] theorem State.withAgenda_cmd (l : List Event) : (s.withAgenda l).cmd = s.cmd := rfl
@[simp] theorem State.withAgenda_status (l : List Event) : (s.withAgenda l).status = s.status := rfl
@[simp] theorem State.withAgenda_ctrl (l : List Event) : (s.withAgenda l).ctrl = s.ctrl := rfl
@[simp] theorem State.withAgenda_imgdim (l : List Event) : (s.withAgenda l).imgdim = s.imgdim := rfl
@[simp] theorem State.withAgenda_kdim (l : List Event) : (s.withAgenda l).kdim = s.kdim := rfl
@[simp] theorem State.withAgenda_anchor (l : List Event) : (s.withAgenda l).anchor = s.anchor := rfl
@[simp] theorem State.withAgenda_kram (l : List Event) : (s.withAgenda l).kram = s.kram := rfl
@[simp] theorem State.withAgenda_srcmem (l : List Event) : (s.withAgenda l).srcmem = s.srcmem := rfl
@[simp] theorem State.withAgenda_dstmem (l : List Event) : (s.withAgenda l).dstmem = s.dstmem := rfl
@[simp] theorem State.withAgenda_ox (l : List Event) : (s.withAgenda l).ox = s.ox := rfl
@[simp] theorem State.withAgenda_oy (l : List Event) : (s.withAgenda l).oy = s.oy := rfl
@[simp] theorem State.withAgenda_agenda (l : List Event) : (s.withAgenda l).agenda = l := rfl
@[simp] theorem State.withAgenda_resp (l : List Event) : (s.withAgenda l).resp = s.resp := rfl
@[simp] theorem State.withAgenda_draws (l : List Event) : (s.withAgenda l).draws = s.draws := rfl

@[simp] theorem State.latch_cmd (c : CmdLatch) : (s.latch c).cmd = c := rfl
@[simp] theorem State.latch_status (c : CmdLatch) : (s.latch c).status = s.status.cleared := rfl
@[simp] theorem State.latch_ctrl (c : CmdLatch) : (s.latch c).ctrl = s.ctrl := rfl
@[simp] theorem State.latch_imgdim (c : CmdLatch) : (s.latch c).imgdim = s.imgdim := rfl
@[simp] theorem State.latch_kdim (c : CmdLatch) : (s.latch c).kdim = s.kdim := rfl
@[simp] theorem State.latch_anchor (c : CmdLatch) : (s.latch c).anchor = s.anchor := rfl
@[simp] theorem State.latch_kram (c : CmdLatch) : (s.latch c).kram = s.kram := rfl
@[simp] theorem State.latch_srcmem (c : CmdLatch) : (s.latch c).srcmem = s.srcmem := rfl
@[simp] theorem State.latch_dstmem (c : CmdLatch) : (s.latch c).dstmem = s.dstmem := rfl
@[simp] theorem State.latch_ox (c : CmdLatch) : (s.latch c).ox = s.ox := rfl
@[simp] theorem State.latch_oy (c : CmdLatch) : (s.latch c).oy = s.oy := rfl
@[simp] theorem State.latch_agenda (c : CmdLatch) : (s.latch c).agenda = s.agenda := rfl
@[simp] theorem State.latch_resp (c : CmdLatch) : (s.latch c).resp = s.resp := rfl
@[simp] theorem State.latch_draws (c : CmdLatch) : (s.latch c).draws = s.draws := rfl

@[simp] theorem State.raise_cmd (e : CommandError) : (s.raise e).cmd = s.cmd := rfl
@[simp] theorem State.raise_status (e : CommandError) : (s.raise e).status = s.status.failed e := rfl
@[simp] theorem State.raise_ctrl (e : CommandError) : (s.raise e).ctrl = s.ctrl := rfl
@[simp] theorem State.raise_imgdim (e : CommandError) : (s.raise e).imgdim = s.imgdim := rfl
@[simp] theorem State.raise_kdim (e : CommandError) : (s.raise e).kdim = s.kdim := rfl
@[simp] theorem State.raise_anchor (e : CommandError) : (s.raise e).anchor = s.anchor := rfl
@[simp] theorem State.raise_kram (e : CommandError) : (s.raise e).kram = s.kram := rfl
@[simp] theorem State.raise_srcmem (e : CommandError) : (s.raise e).srcmem = s.srcmem := rfl
@[simp] theorem State.raise_dstmem (e : CommandError) : (s.raise e).dstmem = s.dstmem := rfl
@[simp] theorem State.raise_ox (e : CommandError) : (s.raise e).ox = s.ox := rfl
@[simp] theorem State.raise_oy (e : CommandError) : (s.raise e).oy = s.oy := rfl
@[simp] theorem State.raise_agenda (e : CommandError) : (s.raise e).agenda = s.agenda := rfl
@[simp] theorem State.raise_resp (e : CommandError) : (s.raise e).resp = s.resp := rfl
@[simp] theorem State.raise_draws (e : CommandError) : (s.raise e).draws = s.draws := rfl

@[simp] theorem State.acknowledge_cmd (v : Word) : (s.acknowledge v).cmd = s.cmd := rfl
@[simp] theorem State.acknowledge_status (v : Word) : (s.acknowledge v).status = s.status.writeOneToClear v := rfl
@[simp] theorem State.acknowledge_ctrl (v : Word) : (s.acknowledge v).ctrl = s.ctrl := rfl
@[simp] theorem State.acknowledge_imgdim (v : Word) : (s.acknowledge v).imgdim = s.imgdim := rfl
@[simp] theorem State.acknowledge_kdim (v : Word) : (s.acknowledge v).kdim = s.kdim := rfl
@[simp] theorem State.acknowledge_anchor (v : Word) : (s.acknowledge v).anchor = s.anchor := rfl
@[simp] theorem State.acknowledge_kram (v : Word) : (s.acknowledge v).kram = s.kram := rfl
@[simp] theorem State.acknowledge_srcmem (v : Word) : (s.acknowledge v).srcmem = s.srcmem := rfl
@[simp] theorem State.acknowledge_dstmem (v : Word) : (s.acknowledge v).dstmem = s.dstmem := rfl
@[simp] theorem State.acknowledge_ox (v : Word) : (s.acknowledge v).ox = s.ox := rfl
@[simp] theorem State.acknowledge_oy (v : Word) : (s.acknowledge v).oy = s.oy := rfl
@[simp] theorem State.acknowledge_agenda (v : Word) : (s.acknowledge v).agenda = s.agenda := rfl
@[simp] theorem State.acknowledge_resp (v : Word) : (s.acknowledge v).resp = s.resp := rfl
@[simp] theorem State.acknowledge_draws (v : Word) : (s.acknowledge v).draws = s.draws := rfl

@[simp] theorem State.startRun_cmd : (s.startRun).cmd = s.cmd := rfl
@[simp] theorem State.startRun_status : (s.startRun).status = s.status.started := rfl
@[simp] theorem State.startRun_ctrl : (s.startRun).ctrl = s.ctrl := rfl
@[simp] theorem State.startRun_imgdim : (s.startRun).imgdim = s.imgdim := rfl
@[simp] theorem State.startRun_kdim : (s.startRun).kdim = s.kdim := rfl
@[simp] theorem State.startRun_anchor : (s.startRun).anchor = s.anchor := rfl
@[simp] theorem State.startRun_kram : (s.startRun).kram = s.kram := rfl
@[simp] theorem State.startRun_srcmem : (s.startRun).srcmem = s.srcmem := rfl
@[simp] theorem State.startRun_dstmem : (s.startRun).dstmem = s.dstmem := rfl
@[simp] theorem State.startRun_ox : (s.startRun).ox = 0#8 := rfl
@[simp] theorem State.startRun_oy : (s.startRun).oy = 0#8 := rfl
@[simp] theorem State.startRun_agenda : (s.startRun).agenda = s.agenda := rfl
@[simp] theorem State.startRun_resp : (s.startRun).resp = s.resp := rfl
@[simp] theorem State.startRun_draws : (s.startRun).draws = s.draws := rfl

@[simp] theorem State.setDst_cmd (a : Nat) (b : Byte) : (s.setDst a b).cmd = s.cmd := rfl
@[simp] theorem State.setDst_status (a : Nat) (b : Byte) : (s.setDst a b).status = s.status := rfl
@[simp] theorem State.setDst_ctrl (a : Nat) (b : Byte) : (s.setDst a b).ctrl = s.ctrl := rfl
@[simp] theorem State.setDst_imgdim (a : Nat) (b : Byte) : (s.setDst a b).imgdim = s.imgdim := rfl
@[simp] theorem State.setDst_kdim (a : Nat) (b : Byte) : (s.setDst a b).kdim = s.kdim := rfl
@[simp] theorem State.setDst_anchor (a : Nat) (b : Byte) : (s.setDst a b).anchor = s.anchor := rfl
@[simp] theorem State.setDst_kram (a : Nat) (b : Byte) : (s.setDst a b).kram = s.kram := rfl
@[simp] theorem State.setDst_srcmem (a : Nat) (b : Byte) : (s.setDst a b).srcmem = s.srcmem := rfl
@[simp] theorem State.setDst_dstmem (a : Nat) (b : Byte) : (s.setDst a b).dstmem = s.dstmem.setByte a b := rfl
@[simp] theorem State.setDst_ox (a : Nat) (b : Byte) : (s.setDst a b).ox = s.ox := rfl
@[simp] theorem State.setDst_oy (a : Nat) (b : Byte) : (s.setDst a b).oy = s.oy := rfl
@[simp] theorem State.setDst_agenda (a : Nat) (b : Byte) : (s.setDst a b).agenda = s.agenda := rfl
@[simp] theorem State.setDst_resp (a : Nat) (b : Byte) : (s.setDst a b).resp = s.resp := rfl
@[simp] theorem State.setDst_draws (a : Nat) (b : Byte) : (s.setDst a b).draws = s.draws := rfl

@[simp] theorem State.moveTo_cmd (x y : Byte) : (s.moveTo x y).cmd = s.cmd := rfl
@[simp] theorem State.moveTo_status (x y : Byte) : (s.moveTo x y).status = s.status := rfl
@[simp] theorem State.moveTo_ctrl (x y : Byte) : (s.moveTo x y).ctrl = s.ctrl := rfl
@[simp] theorem State.moveTo_imgdim (x y : Byte) : (s.moveTo x y).imgdim = s.imgdim := rfl
@[simp] theorem State.moveTo_kdim (x y : Byte) : (s.moveTo x y).kdim = s.kdim := rfl
@[simp] theorem State.moveTo_anchor (x y : Byte) : (s.moveTo x y).anchor = s.anchor := rfl
@[simp] theorem State.moveTo_kram (x y : Byte) : (s.moveTo x y).kram = s.kram := rfl
@[simp] theorem State.moveTo_srcmem (x y : Byte) : (s.moveTo x y).srcmem = s.srcmem := rfl
@[simp] theorem State.moveTo_dstmem (x y : Byte) : (s.moveTo x y).dstmem = s.dstmem := rfl
@[simp] theorem State.moveTo_ox (x y : Byte) : (s.moveTo x y).ox = x := rfl
@[simp] theorem State.moveTo_oy (x y : Byte) : (s.moveTo x y).oy = y := rfl
@[simp] theorem State.moveTo_agenda (x y : Byte) : (s.moveTo x y).agenda = s.agenda := rfl
@[simp] theorem State.moveTo_resp (x y : Byte) : (s.moveTo x y).resp = s.resp := rfl
@[simp] theorem State.moveTo_draws (x y : Byte) : (s.moveTo x y).draws = s.draws := rfl

@[simp] theorem State.complete_cmd : (s.complete).cmd = s.cmd := rfl
@[simp] theorem State.complete_status : (s.complete).status = s.status.completed := rfl
@[simp] theorem State.complete_ctrl : (s.complete).ctrl = s.ctrl := rfl
@[simp] theorem State.complete_imgdim : (s.complete).imgdim = s.imgdim := rfl
@[simp] theorem State.complete_kdim : (s.complete).kdim = s.kdim := rfl
@[simp] theorem State.complete_anchor : (s.complete).anchor = s.anchor := rfl
@[simp] theorem State.complete_kram : (s.complete).kram = s.kram := rfl
@[simp] theorem State.complete_srcmem : (s.complete).srcmem = s.srcmem := rfl
@[simp] theorem State.complete_dstmem : (s.complete).dstmem = s.dstmem := rfl
@[simp] theorem State.complete_ox : (s.complete).ox = s.ox := rfl
@[simp] theorem State.complete_oy : (s.complete).oy = s.oy := rfl
@[simp] theorem State.complete_agenda : (s.complete).agenda = s.agenda := rfl
@[simp] theorem State.complete_resp : (s.complete).resp = s.resp := rfl
@[simp] theorem State.complete_draws : (s.complete).draws = s.draws := rfl

@[simp] theorem State.applyReset_cmd : (s.applyReset).cmd = State.reset.cmd := rfl
@[simp] theorem State.applyReset_status : (s.applyReset).status = State.reset.status := rfl
@[simp] theorem State.applyReset_ctrl : (s.applyReset).ctrl = State.reset.ctrl := rfl
@[simp] theorem State.applyReset_imgdim : (s.applyReset).imgdim = State.reset.imgdim := rfl
@[simp] theorem State.applyReset_kdim : (s.applyReset).kdim = State.reset.kdim := rfl
@[simp] theorem State.applyReset_anchor : (s.applyReset).anchor = State.reset.anchor := rfl
@[simp] theorem State.applyReset_kram : (s.applyReset).kram = s.kram := rfl
@[simp] theorem State.applyReset_srcmem : (s.applyReset).srcmem = s.srcmem := rfl
@[simp] theorem State.applyReset_dstmem : (s.applyReset).dstmem = s.dstAfterReset := rfl
@[simp] theorem State.applyReset_ox : (s.applyReset).ox = State.reset.ox := rfl
@[simp] theorem State.applyReset_oy : (s.applyReset).oy = State.reset.oy := rfl
@[simp] theorem State.applyReset_agenda : (s.applyReset).agenda = s.agenda := rfl
@[simp] theorem State.applyReset_resp : (s.applyReset).resp = s.resp := rfl
@[simp] theorem State.applyReset_draws : (s.applyReset).draws = s.draws := rfl

@[simp] theorem State.applyPowerOn_cmd : (s.applyPowerOn).cmd = State.reset.cmd := rfl
@[simp] theorem State.applyPowerOn_status : (s.applyPowerOn).status = State.reset.status := rfl
@[simp] theorem State.applyPowerOn_ctrl : (s.applyPowerOn).ctrl = State.reset.ctrl := rfl
@[simp] theorem State.applyPowerOn_imgdim : (s.applyPowerOn).imgdim = State.reset.imgdim := rfl
@[simp] theorem State.applyPowerOn_kdim : (s.applyPowerOn).kdim = State.reset.kdim := rfl
@[simp] theorem State.applyPowerOn_anchor : (s.applyPowerOn).anchor = State.reset.anchor := rfl
@[simp] theorem State.applyPowerOn_kram : (s.applyPowerOn).kram = s.kram.redraw Config.kramBytes := rfl
@[simp] theorem State.applyPowerOn_srcmem : (s.applyPowerOn).srcmem = s.srcmem.redraw Config.pixmemBytes := rfl
@[simp] theorem State.applyPowerOn_dstmem : (s.applyPowerOn).dstmem = s.dstmem.redraw Config.pixmemBytes := rfl
@[simp] theorem State.applyPowerOn_ox : (s.applyPowerOn).ox = State.reset.ox := rfl
@[simp] theorem State.applyPowerOn_oy : (s.applyPowerOn).oy = State.reset.oy := rfl
@[simp] theorem State.applyPowerOn_agenda : (s.applyPowerOn).agenda = s.agenda := rfl
@[simp] theorem State.applyPowerOn_resp : (s.applyPowerOn).resp = s.resp := rfl
@[simp] theorem State.applyPowerOn_draws : (s.applyPowerOn).draws = s.draws := rfl

/-! The bytes an array holds depend on that array alone. -/

theorem State.byteAt_kram (a : Nat) : s.byteAt .kram a = s.kram.byteAt .kram a := rfl
theorem State.byteAt_srcmem (a : Nat) : s.byteAt .srcmem a = s.srcmem.byteAt .srcmem a := rfl
theorem State.byteAt_dstmem (a : Nat) : s.byteAt .dstmem a = s.dstmem.byteAt .dstmem a := rfl

end Sys2Proof.Machine
end

