-- ==== Sys2Proof/Laws/Ops.lean ====
section
/-! SUPPORT. What the shared operations of the commands can do: `accept` (R91), the BUSY lock, and `exec` over them. -/

namespace Sys2Proof.Machine

/-- An accepted command leaves one of two states: that of a failed command, or that of a run just started (R91). -/
theorem accept_eq (krom : Krom) (c : CmdLatch) (s : State) (h : s.status.busy = false) :
    accept krom c s =
      match (s.latch c).checkCommand krom with
      | some e => s.failedWith c e
      | none => s.running c := by
  unfold accept
  cases (s.latch c).checkCommand krom with
  | some e => simp [State.raise, State.latch, State.failedWith, Status.failed, Status.cleared, h]
  | none => simp [State.startRun, State.latch, State.running, Status.started, Status.cleared]

theorem submitTo_busy {krom : Krom} {c : CmdLatch} {s : State} (h : s.status.busy = true) : submitTo krom c s = s := by
  simp [submitTo, h]

theorem submitTo_idle {krom : Krom} {c : CmdLatch} {s : State} (h : s.status.busy = false) :
    submitTo krom c s =
      match (s.latch c).checkCommand krom with
      | some e => s.failedWith c e
      | none => s.running c := by
  simp [submitTo, h, accept_eq]

theorem exec_conv (b : Border) (fill fid : Byte) (s : State) :
    exec (convInstr b fill fid) s = .next (submitTo Config.krom (convLatch b fill fid) s) := by
  cases b <;> rfl

theorem exec_filt (b : Border) (fill fid : Byte) (s : State) :
    exec (filtInstr b fill fid) s = .next (submitTo Config.krom (filtLatch b fill fid) s) := by
  cases b <;> rfl

/-- Every command is NOP, a CONV or a FILT. -/
theorem instr_cases (i : Instr) :
    i = .nop ∨ (∃ b fill fid, i = convInstr b fill fid) ∨ ∃ b fill fid, i = filtInstr b fill fid := by
  cases i with
  | nop => exact .inl rfl
  | convRfl fill fid => exact .inr (.inl ⟨.reflect, fill, fid, rfl⟩)
  | filtRfl fill fid => exact .inr (.inr ⟨.reflect, fill, fid, rfl⟩)
  | convRep fill fid => exact .inr (.inl ⟨.replicate, fill, fid, rfl⟩)
  | filtRep fill fid => exact .inr (.inr ⟨.replicate, fill, fid, rfl⟩)
  | convWrp fill fid => exact .inr (.inl ⟨.wrap, fill, fid, rfl⟩)
  | filtWrp fill fid => exact .inr (.inr ⟨.wrap, fill, fid, rfl⟩)
  | convCst fill fid => exact .inr (.inl ⟨.constant, fill, fid, rfl⟩)
  | filtCst fill fid => exact .inr (.inr ⟨.constant, fill, fid, rfl⟩)

/-- Everything a command can do: nothing (NOP), or submit one latch. -/
theorem exec_cases (i : Instr) : (i = .nop ∧ ∀ s, exec i s = .next s) ∨
    (i ≠ .nop ∧ ∃ c, ∀ s, exec i s = .next (submitTo Config.krom c s)) := by
  rcases instr_cases i with rfl | ⟨b, fill, fid, rfl⟩ | ⟨b, fill, fid, rfl⟩
  · exact .inl ⟨rfl, fun _ => rfl⟩
  · exact .inr ⟨by cases b <;> simp [convInstr], _, exec_conv b fill fid⟩
  · exact .inr ⟨by cases b <;> simp [filtInstr], _, exec_filt b fill fid⟩

/-- While BUSY = 1 every command does nothing (R50, R114). -/
theorem exec_busy (i : Instr) {s : State} (h : s.status.busy = true) : exec i s = .next s := by
  rcases exec_cases i with ⟨-, hc⟩ | ⟨-, c, hc⟩
  · exact hc s
  · rw [hc, submitTo_busy h]

/-- A word with GO = 1 submits the latch its fields make (R91). -/
theorem exec_decodeWord {v : Word} (h : v.getLsbD 0 = true) :
    ∃ b, b.code = borderField v ∧
      ∀ s, exec (decodeWord v) s = .next (submitTo Config.krom ⟨selField v, b, fillField v, fidField v⟩ s) := by
  refine ⟨Border.ofCode (borderField v), Border.code_ofCode _, fun s => ?_⟩
  simp only [decodeWord, goField, h]
  cases selField v <;> cases Border.ofCode (borderField v) <;> rfl

/-- A submitted command leaves CTRL, the operand registers, the arrays and the model's own fields as they were (R95). -/
theorem submitTo_frame (krom : Krom) (c : CmdLatch) (s : State) :
    (submitTo krom c s).ctrl = s.ctrl ∧ (submitTo krom c s).imgdim = s.imgdim ∧ (submitTo krom c s).kdim = s.kdim ∧
      (submitTo krom c s).anchor = s.anchor ∧ (submitTo krom c s).kram = s.kram ∧
      (submitTo krom c s).srcmem = s.srcmem ∧ (submitTo krom c s).dstmem = s.dstmem ∧
      (submitTo krom c s).agenda = s.agenda ∧ (submitTo krom c s).resp = s.resp ∧
      (submitTo krom c s).draws = s.draws := by
  cases h : s.status.busy
  · rw [submitTo_idle h]
    split <;> exact ⟨rfl, rfl, rfl, rfl, rfl, rfl, rfl, rfl, rfl, rfl⟩
  · rw [submitTo_busy h]
    exact ⟨rfl, rfl, rfl, rfl, rfl, rfl, rfl, rfl, rfl, rfl⟩

/-- The check of a command whose kernel descriptor is known (R93, R94). -/
theorem checkCommand_some {krom : Krom} {s : State} {kd : KernelEntry} (h : s.kernel krom = some kd) :
    s.checkCommand krom =
      if kd.kw.toNat = 0 ∨ kd.kh.toNat = 0 then some .invalidKernel
      else if kd.kw.toNat ≤ kd.ax.toNat ∨ kd.kh.toNat ≤ kd.ay.toNat then some .invalidAnchor
      else none := by
  have e : ∀ a : Nibble, a = 0#4 ↔ a.toNat = 0 := fun a => by rw [BitVec.toNat_eq]; simp
  simp [State.checkCommand, h, kernelZeroSized, anchorOutside, BitVec.le_def, e]

theorem checkCommand_none {krom : Krom} {s : State} (h : s.kernel krom = none) :
    s.checkCommand krom = some .unknownFilter := by
  simp [State.checkCommand, h]

/-- The kernel descriptor exists and passed the checks exactly when no check fails. -/
theorem checkCommand_eq_none {krom : Krom} {s : State} (h : s.checkCommand krom = none) :
    ∃ kd, s.kernel krom = some kd ∧ kd.ax.toNat < kd.kw.toNat ∧ kd.ay.toNat < kd.kh.toNat := by
  cases hk : s.kernel krom with
  | none => simp [checkCommand_none hk] at h
  | some kd =>
    refine ⟨kd, rfl, ?_⟩
    rw [checkCommand_some hk] at h
    split at h
    · simp at h
    · split at h
      · simp at h
      · omega

@[simp] theorem kernel_conv (krom : Krom) (s : State) (b : Border) (fill fid : Byte) :
    (s.latch (convLatch b fill fid)).kernel krom = some (s.latch (convLatch b fill fid)).convKernel := rfl

@[simp] theorem kernel_filt (krom : Krom) (s : State) (b : Border) (fill fid : Byte) :
    (s.latch (filtLatch b fill fid)).kernel krom = krom fid := rfl

@[simp] theorem State.latch_convKernel (s : State) (c : CmdLatch) : (s.latch c).convKernel = s.convKernel := rfl

/-- The registry holds identifiers 0 to 7, each 3 x 3 with anchor (1, 1) (R141). -/
theorem krom_registered {f : Byte} (h : f.toNat < 8) :
    ∃ e, Config.krom f = some e ∧ e.kw = 3#4 ∧ e.kh = 3#4 ∧ e.ax = 1#4 ∧ e.ay = 1#4 := by
  simp [Config.krom, Config.nfilt, h, KernelEntry.canonical]

/-- The registry holds no identifier from 8 on (R141). -/
theorem krom_unregistered {f : Byte} (h : 8 ≤ f.toNat) : Config.krom f = none := by
  have : ¬f.toNat < Config.nfilt := by simp only [Config.nfilt]; omega
  simp only [Config.krom, this, if_false]

/-- The check of a FILT command depends only on its identifier. -/
theorem checkCommand_filt (s : State) (b : Border) (fill fid : Byte) :
    (s.latch (filtLatch b fill fid)).checkCommand Config.krom =
      if fid.toNat < 8 then none else some .unknownFilter := by
  by_cases h : fid.toNat < 8
  · obtain ⟨e, he, hw, hh, hx, hy⟩ := krom_registered h
    rw [checkCommand_some (kd := e) (by rw [kernel_filt]; exact he)]
    simp [h, hw, hh, hx, hy]
  · rw [checkCommand_none (by rw [kernel_filt]; exact krom_unregistered (by omega))]
    simp [h]

end Sys2Proof.Machine
end

