-- ==== Sys2Proof/Laws/Sampler.lean ====
section
/-! SUPPORT. What the sampler can return, and that it stays inside the image (R120, R127, R53). -/

namespace Sys2Proof.Machine

/-- The index of a source pixel inside the image is below `W * H` (R53). -/
theorem srcIndex_lt (s : State) {px py : Int} (hx0 : 0 ≤ px) (hx1 : px ≤ s.width - 1) (hy0 : 0 ≤ py)
    (hy1 : py ≤ s.height - 1) : (py * s.width + px).toNat < s.width * s.height := by
  obtain ⟨x, rfl⟩ := Int.eq_ofNat_of_zero_le hx0
  obtain ⟨y, rfl⟩ := Int.eq_ofNat_of_zero_le hy0
  have hx : x + 1 ≤ s.width := by omega
  have hy : y + 1 ≤ s.height := by omega
  have e : ((y : Int) * s.width + x).toNat = y * s.width + x := by
    rw [show ((y : Int) * s.width + x) = ((y * s.width + x : Nat) : Int) by push_cast; ring, Int.toNat_natCast]
  rw [e]
  calc y * s.width + x < y * s.width + s.width := by omega
    _ = s.width * (y + 1) := by ring
    _ ≤ s.width * s.height := Nat.mul_le_mul_left _ hy

theorem State.width_pos (s : State) : 0 < s.width := Nat.succ_pos _

theorem State.height_pos (s : State) : 0 < s.height := Nat.succ_pos _

theorem State.width_le (s : State) : s.width ≤ 256 := by
  have := s.imgdim.wm1.isLt
  unfold State.width
  omega

theorem State.height_le (s : State) : s.height ≤ 256 := by
  have := s.imgdim.hm1.isLt
  unfold State.height
  omega

/-- Everything a sample can be: the source byte at an index inside the image, or, under the constant policy and out of
bounds, FILL. Which of the two, and which index, depends on the dimensions, the policy and the coordinates alone. -/
theorem sample_cases (s : State) (px py : Int) :
    (∃ idx, idx < s.width * s.height ∧ ∀ t : State, t.imgdim = s.imgdim → t.cmd.border = s.cmd.border →
      t.sample px py = t.byteAt .srcmem idx) ∨
    (s.cmd.border = .constant ∧ (px < 0 ∨ s.width ≤ px ∨ py < 0 ∨ s.height ≤ py) ∧
      ∀ t : State, t.imgdim = s.imgdim → t.cmd.border = s.cmd.border → t.sample px py = t.cmd.fill) := by
  have hw := s.width_pos
  have hh := s.height_pos
  have ew : ∀ t : State, t.imgdim = s.imgdim → t.width = s.width := fun t h => by simp [State.width, h]
  have eh : ∀ t : State, t.imgdim = s.imgdim → t.height = s.height := fun t h => by simp [State.height, h]
  by_cases hin : 0 ≤ px ∧ px < s.width ∧ 0 ≤ py ∧ py < s.height
  · refine .inl ⟨_, srcIndex_lt s hin.1 (by omega) hin.2.2.1 (by omega), fun t hi _ => ?_⟩
    simp only [State.sample, ew t hi, eh t hi, hin, and_self, if_true, State.src]
  · cases hb : s.cmd.border with
    | reflect =>
      have h1 := refl_mem px (n := s.width) (by omega)
      have h2 := refl_mem py (n := s.height) (by omega)
      refine .inl ⟨_, srcIndex_lt s h1.1 h1.2 h2.1 h2.2, fun t hi hbt => ?_⟩
      simp only [State.sample, hin, if_false, hbt, State.sampleRfl, State.src, ew t hi, eh t hi]
    | replicate =>
      have h1 := clampi_mem px (lo := 0) (hi := (s.width : Int) - 1) (by omega)
      have h2 := clampi_mem py (lo := 0) (hi := (s.height : Int) - 1) (by omega)
      refine .inl ⟨_, srcIndex_lt s h1.1 h1.2 h2.1 h2.2, fun t hi hbt => ?_⟩
      simp only [State.sample, hin, if_false, hbt, State.sampleRep, State.src, ew t hi, eh t hi]
    | wrap =>
      have h1 := floorMod_nonneg px (n := (s.width : Int)) (by omega)
      have h2 := floorMod_lt px (n := (s.width : Int)) (by omega)
      have h3 := floorMod_nonneg py (n := (s.height : Int)) (by omega)
      have h4 := floorMod_lt py (n := (s.height : Int)) (by omega)
      refine .inl ⟨_, srcIndex_lt s h1 (by omega) h3 (by omega), fun t hi hbt => ?_⟩
      simp only [State.sample, hin, if_false, hbt, State.sampleWrp, State.src, ew t hi, eh t hi]
    | constant =>
      refine .inr ⟨rfl, by omega, fun t hi hbt => ?_⟩
      simp only [State.sample, ew t hi, eh t hi, hin, if_false, hbt, State.sampleCst]

end Sys2Proof.Machine
end

