-- ==== Sys2Proof/Laws/Engine.lean ====
section
/-! SUPPORT. What the engine's step can do (R100): the byte it writes, where the position goes, and what it leaves alone. -/

namespace Sys2Proof.Machine

variable (s : State)

@[simp] theorem State.advance_cmd : s.advance.cmd = s.cmd := by
  unfold State.advance; split_ifs <;> rfl
@[simp] theorem State.advance_ctrl : s.advance.ctrl = s.ctrl := by
  unfold State.advance; split_ifs <;> rfl
@[simp] theorem State.advance_imgdim : s.advance.imgdim = s.imgdim := by
  unfold State.advance; split_ifs <;> rfl
@[simp] theorem State.advance_kdim : s.advance.kdim = s.kdim := by
  unfold State.advance; split_ifs <;> rfl
@[simp] theorem State.advance_anchor : s.advance.anchor = s.anchor := by
  unfold State.advance; split_ifs <;> rfl
@[simp] theorem State.advance_kram : s.advance.kram = s.kram := by
  unfold State.advance; split_ifs <;> rfl
@[simp] theorem State.advance_srcmem : s.advance.srcmem = s.srcmem := by
  unfold State.advance; split_ifs <;> rfl
@[simp] theorem State.advance_dstmem : s.advance.dstmem = s.dstmem := by
  unfold State.advance; split_ifs <;> rfl
@[simp] theorem State.advance_agenda : s.advance.agenda = s.agenda := by
  unfold State.advance; split_ifs <;> rfl
@[simp] theorem State.advance_resp : s.advance.resp = s.resp := by
  unfold State.advance; split_ifs <;> rfl
@[simp] theorem State.advance_draws : s.advance.draws = s.draws := by
  unfold State.advance; split_ifs <;> rfl

/-- An engine step leaves one of two states: the same one (not enabled), or the one with a pixel written (R100). -/
theorem engineStep_cases {s t : State} (h : engineStep s = .next t) :
    (s.status.busy = false ∧ t = s) ∨
    (s.status.busy = true ∧ ∃ kd, s.kernel Config.krom = some kd ∧ t = enginePixel kd s) := by
  unfold engineStep engineStepWith at h
  cases hb : s.status.busy with
  | false => exact .inl ⟨rfl, by simpa [hb] using h.symm⟩
  | true =>
    simp only [hb, if_true] at h
    cases hk : s.kernel Config.krom with
    | none => simp [hk] at h
    | some kd => exact .inr ⟨rfl, kd, rfl, by simpa [hk] using h.symm⟩

theorem engineStep_idle {s : State} (h : s.status.busy = false) : engineStep s = .next s := by
  simp [engineStep, engineStepWith, h]

theorem engineStep_busy {s : State} {kd : KernelEntry} (h : s.status.busy = true) (hk : s.kernel Config.krom = some kd) :
    engineStep s = .next (enginePixel kd s) := by
  simp [engineStep, engineStepWith, h, hk]

@[simp] theorem enginePixel_cmd (kd : KernelEntry) : (enginePixel kd s).cmd = s.cmd := by
  simp [enginePixel]
@[simp] theorem enginePixel_ctrl (kd : KernelEntry) : (enginePixel kd s).ctrl = s.ctrl := by
  simp [enginePixel]
@[simp] theorem enginePixel_imgdim (kd : KernelEntry) : (enginePixel kd s).imgdim = s.imgdim := by
  simp [enginePixel]
@[simp] theorem enginePixel_kdim (kd : KernelEntry) : (enginePixel kd s).kdim = s.kdim := by
  simp [enginePixel]
@[simp] theorem enginePixel_anchor (kd : KernelEntry) : (enginePixel kd s).anchor = s.anchor := by
  simp [enginePixel]
@[simp] theorem enginePixel_kram (kd : KernelEntry) : (enginePixel kd s).kram = s.kram := by
  simp [enginePixel]
@[simp] theorem enginePixel_srcmem (kd : KernelEntry) : (enginePixel kd s).srcmem = s.srcmem := by
  simp [enginePixel]
@[simp] theorem enginePixel_agenda (kd : KernelEntry) : (enginePixel kd s).agenda = s.agenda := by
  simp [enginePixel]
@[simp] theorem enginePixel_resp (kd : KernelEntry) : (enginePixel kd s).resp = s.resp := by
  simp [enginePixel]
@[simp] theorem enginePixel_draws (kd : KernelEntry) : (enginePixel kd s).draws = s.draws := by
  simp [enginePixel]

@[simp] theorem enginePixel_dstmem (kd : KernelEntry) :
    (enginePixel kd s).dstmem = s.dstmem.setByte s.scanIndex (s.out kd s.ox.toNat s.oy.toNat) := by
  simp [enginePixel]

theorem enginePixel_sameOperands (kd : KernelEntry) : SameOperands s (enginePixel kd s) := by
  constructor <;> simp

/-- Where the engine is after a pixel (R100): the next column, the first column of the next row, or at the end of the
run, with BUSY cleared and DONE set. -/
theorem enginePixel_position (kd : KernelEntry) :
    if s.ox.toNat + 1 < s.width then
      (enginePixel kd s).ox.toNat = s.ox.toNat + 1 ∧ (enginePixel kd s).oy = s.oy ∧
        (enginePixel kd s).status = s.status
    else if s.oy.toNat + 1 < s.height then
      (enginePixel kd s).ox = 0#8 ∧ (enginePixel kd s).oy.toNat = s.oy.toNat + 1 ∧
        (enginePixel kd s).status = s.status
    else
      (enginePixel kd s).ox = s.ox ∧ (enginePixel kd s).oy = s.oy ∧
        (enginePixel kd s).status = s.status.completed := by
  have hw := s.width_le
  have hh := s.height_le
  have e1 : (s.setDst s.scanIndex (s.out kd s.ox.toNat s.oy.toNat)).width = s.width := rfl
  have e2 : (s.setDst s.scanIndex (s.out kd s.ox.toNat s.oy.toNat)).height = s.height := rfl
  unfold enginePixel State.advance
  simp only [e1, e2, State.setDst_ox, State.setDst_oy]
  split_ifs with h1 h2
  · refine ⟨?_, rfl, rfl⟩
    rw [State.moveTo_ox, BitVec.toNat_add]
    simp only [BitVec.toNat_ofNat]
    omega
  · refine ⟨rfl, ?_, rfl⟩
    rw [State.moveTo_oy, BitVec.toNat_add]
    simp only [BitVec.toNat_ofNat]
    omega
  · exact ⟨rfl, rfl, rfl⟩

/-- The index the engine writes is inside the image. -/
theorem scanIndex_lt {s : State} (hx : s.ox.toNat < s.width) (hy : s.oy.toNat < s.height) :
    s.scanIndex < s.width * s.height := by
  unfold State.scanIndex
  calc s.oy.toNat * s.width + s.ox.toNat < s.oy.toNat * s.width + s.width := by omega
    _ = s.width * (s.oy.toNat + 1) := by ring
    _ ≤ s.width * s.height := Nat.mul_le_mul_left _ hy

/-- The number of pixels of an image is at most the size of the pixel arrays (R4). -/
theorem State.pixels_le (s : State) : s.width * s.height ≤ Config.pixmemBytes :=
  le_trans (Nat.mul_le_mul s.width_le s.height_le) (by decide)

theorem SameOperands.refl (s : State) : SameOperands s s := ⟨rfl, rfl, rfl, rfl, rfl, rfl⟩

theorem SameOperands.trans {s t u : State} (h : SameOperands s t) (g : SameOperands t u) : SameOperands s u :=
  ⟨g.cmd.trans h.cmd, g.imgdim.trans h.imgdim, g.kdim.trans h.kdim, g.anchor.trans h.anchor, g.kram.trans h.kram,
    g.srcmem.trans h.srcmem⟩

theorem SameOperands.width {s t : State} (h : SameOperands s t) : t.width = s.width := by
  simp only [State.width, h.imgdim]

theorem SameOperands.height {s t : State} (h : SameOperands s t) : t.height = s.height := by
  simp only [State.height, h.imgdim]

/-- Where the engine is after a pixel, as an index in raster order: one further, with STATUS as it was, or, after the last
pixel, with BUSY cleared and DONE set (R100). -/
theorem enginePixel_scanIndex (kd : KernelEntry) {s : State} (hx : s.ox.toNat < s.width) (hy : s.oy.toNat < s.height) :
    (s.scanIndex + 1 < s.width * s.height →
      (enginePixel kd s).status = s.status ∧ (enginePixel kd s).scanIndex = s.scanIndex + 1 ∧
        (enginePixel kd s).ox.toNat < s.width ∧ (enginePixel kd s).oy.toNat < s.height) ∧
    (s.scanIndex + 1 = s.width * s.height → (enginePixel kd s).status = s.status.completed) := by
  have hp := enginePixel_position s kd
  have hw : (enginePixel kd s).width = s.width := (enginePixel_sameOperands s kd).width
  have hle : (s.oy.toNat + 1) * s.width ≤ s.width * s.height := by
    rw [Nat.mul_comm s.width]
    exact Nat.mul_le_mul_right _ hy
  rw [Nat.add_mul, Nat.one_mul] at hle
  simp only [State.scanIndex, hw]
  split_ifs at hp with h1 h2
  · obtain ⟨px, py, ps⟩ := hp
    refine ⟨fun _ => ⟨ps, ?_, by omega, by rw [py]; exact hy⟩, fun _ => ?_⟩
    · rw [px, py]; omega
    · omega
  · obtain ⟨px, py, ps⟩ := hp
    have hle2 : (s.oy.toNat + 2) * s.width ≤ s.width * s.height := by
      rw [Nat.mul_comm s.width]
      exact Nat.mul_le_mul_right _ h2
    rw [Nat.add_mul] at hle2
    have hpos := s.width_pos
    refine ⟨fun _ => ⟨ps, ?_, by rw [px]; exact hpos, by omega⟩, fun _ => ?_⟩
    · rw [px, py, Nat.add_mul]; simp; omega
    · omega
  · refine ⟨fun h => ?_, fun _ => hp.2.2⟩
    have e : s.oy.toNat + 1 = s.height := by omega
    have hm : s.width * s.height = s.oy.toNat * s.width + s.width := by rw [← e]; ring
    omega

theorem State.kernel_congr {krom : Krom} {s t : State} (h : SameOperands s t) : t.kernel krom = s.kernel krom := by
  have : t.convKernel = s.convKernel := by
    simp only [State.convKernel, State.kramWeight, State.byteAt, State.array, h.kdim, h.anchor, h.kram]
  simp only [State.kernel, h.cmd, this]

theorem State.checkCommand_congr {krom : Krom} {s t : State} (h : SameOperands s t) :
    t.checkCommand krom = s.checkCommand krom := by
  simp only [State.checkCommand, State.kernel_congr h]

/-- Samples, sums and pixels depend on the operands alone (R29). -/
theorem State.out_congr {s t : State} (h : SameOperands s t) (kd : KernelEntry) (x y : Int) :
    t.out kd x y = s.out kd x y := by
  have hs : t.sample = s.sample := by
    funext px py
    have hb : t.cmd.border = s.cmd.border := by rw [h.cmd]
    rcases sample_cases s px py with ⟨idx, -, hv⟩ | ⟨-, -, hv⟩
    · rw [hv t h.imgdim hb, hv s rfl rfl, State.byteAt_srcmem, State.byteAt_srcmem, h.srcmem]
    · rw [hv t h.imgdim hb, hv s rfl rfl, h.cmd]
  simp only [State.out, State.acc, hs]

end Sys2Proof.Machine
end

