-- ==== Sys2Proof/Laws/HostPort.lean ====
section
/-! SUPPORT. What a host transaction can do (R44, R45): where a legal access falls, and the state a read or a write leaves. -/

namespace Sys2Proof.Machine

/-- A legal access of an array stays inside it (R46). -/
theorem target_bytes_bound {addr : Addr} {size : BitVec 2} {name : ArrayName} {off n : Nat}
    (h : target addr size = some (.bytes name off n)) :
    (n = 1 ∨ n = 2 ∨ n = 4) ∧
      off + n ≤ (match name with | .kram => Config.kramBytes | _ => Config.pixmemBytes) := by
  have key : ∀ m, (m = 1 ∨ m = 2 ∨ m = 4) → addr.toNat % m = 0 → mapAddr addr.toNat m = some (.bytes name off n) →
      (n = 1 ∨ n = 2 ∨ n = 4) ∧
      off + n ≤ (match name with | .kram => Config.kramBytes | _ => Config.pixmemBytes) := by
    intro m hm hal hmap
    unfold mapAddr at hmap
    split_ifs at hmap with h1 h2 h3 h4 h5
    · simp at hmap
    · simp only [Option.some.injEq, Target.bytes.injEq] at hmap
      obtain ⟨rfl, rfl, rfl⟩ := hmap
      refine ⟨hm, ?_⟩
      simp only [Config.kramBytes]
      rcases hm with rfl | rfl | rfl <;> omega
    · simp only [Option.some.injEq, Target.bytes.injEq] at hmap
      obtain ⟨rfl, rfl, rfl⟩ := hmap
      refine ⟨hm, ?_⟩
      simp only [Config.pixmemBytes]
      rcases hm with rfl | rfl | rfl <;> omega
    · simp only [Option.some.injEq, Target.bytes.injEq] at hmap
      obtain ⟨rfl, rfl, rfl⟩ := hmap
      refine ⟨hm, ?_⟩
      simp only [Config.pixmemBytes]
      rcases hm with rfl | rfl | rfl <;> omega
  unfold target sizeBytes at h
  split_ifs at h with h0 h1 h2
  all_goals simp only [Option.ite_none_right_eq_some] at h
  · exact key 1 (by omega) h.1 h.2
  · exact key 2 (by omega) h.1 h.2
  · exact key 4 (by omega) h.1 h.2

theorem regAt_isSome {a : Nat} (h : a ≤ 0x1B) (h4 : a % 4 = 0) : ∃ r, regAt a = some r := by
  have : a = 0 ∨ a = 4 ∨ a = 8 ∨ a = 12 ∨ a = 16 ∨ a = 20 ∨ a = 24 := by omega
  rcases this with rfl | rfl | rfl | rfl | rfl | rfl | rfl <;> exact ⟨_, rfl⟩

theorem size_cases (z : BitVec 2) : z = 0#2 ∨ z = 1#2 ∨ z = 2#2 ∨ z = 3#2 := by
  revert z
  decide

/-- The accesses that reach nothing are those R47 lists. -/
theorem target_eq_none (addr : Addr) (size : BitVec 2) :
    target addr size = none ↔
      size = 3#2 ∨ addr.toNat % 2 ^ size.toNat ≠ 0 ∨ (0x0001C ≤ addr.toNat ∧ addr.toNat ≤ 0x003FF) ∨
        (0x00600 ≤ addr.toNat ∧ addr.toNat ≤ 0x0FFFF) ∨ 0x30000 ≤ addr.toNat ∨
        (addr.toNat ≤ 0x0001B ∧ 2 ^ size.toNat ≠ 4) := by
  have key : ∀ n, (n = 1 ∨ n = 2 ∨ n = 4) →
      ((if addr.toNat % n = 0 then mapAddr addr.toNat n else none) = none ↔
        addr.toNat % n ≠ 0 ∨ (0x0001C ≤ addr.toNat ∧ addr.toNat ≤ 0x003FF) ∨
          (0x00600 ≤ addr.toNat ∧ addr.toNat ≤ 0x0FFFF) ∨ 0x30000 ≤ addr.toNat ∨
          (addr.toNat ≤ 0x0001B ∧ n ≠ 4)) := by
    intro n hn
    unfold mapAddr
    split_ifs with h1 h2 h3
    · obtain ⟨r, hr⟩ := regAt_isSome h2 (h3 ▸ h1)
      simp only [hr, Option.map_some, reduceCtorEq, false_iff]
      omega
    all_goals
      simp
      omega
  rcases size_cases size with rfl | rfl | rfl | rfl
  · simpa [target, sizeBytes] using key 1 (by simp)
  · simpa [target, sizeBytes] using key 2 (by simp)
  · simpa [target, sizeBytes] using key 4 (by simp)
  · simp [target, sizeBytes]

/-- A legal access of DSTMEM (R41). -/
theorem target_dstmem {addr : Addr} {size : BitVec 2} (h1 : 0x20000 ≤ addr.toNat) (h2 : addr.toNat ≤ 0x2FFFF)
    (h3 : size ≠ 3#2) (h4 : addr.toNat % 2 ^ size.toNat = 0) :
    target addr size = some (.bytes .dstmem (addr.toNat - 0x20000) (2 ^ size.toNat)) := by
  have hm : ∀ n, mapAddr addr.toNat n = some (.bytes .dstmem (addr.toNat - 0x20000) n) := by
    intro n
    unfold mapAddr
    rw [if_neg (by omega), if_neg (by omega), if_neg (by omega), if_pos (by omega)]
  rcases size_cases size with rfl | rfl | rfl | rfl
  · simp_all [target, sizeBytes]
  · simp_all [target, sizeBytes]
  · simp_all [target, sizeBytes]
  · exact absurd rfl h3

theorem State.countDraw_sameBlock (s : State) (g : Target) : SameBlock s (s.countDraw g) := by
  unfold State.countDraw
  split
  · split
    · exact ⟨⟨rfl, rfl, rfl, rfl, rfl, rfl⟩, rfl, rfl, rfl, rfl, rfl⟩
    · exact ⟨⟨rfl, rfl, rfl, rfl, rfl, rfl⟩, rfl, rfl, rfl, rfl, rfl⟩
  · exact ⟨⟨rfl, rfl, rfl, rfl, rfl, rfl⟩, rfl, rfl, rfl, rfl, rfl⟩

@[simp] theorem State.countDraw_agenda (s : State) (g : Target) : (s.countDraw g).agenda = s.agenda := by
  unfold State.countDraw
  split
  · split <;> rfl
  · rfl

theorem SameBlock.respond {s t : State} (h : SameBlock s t) (r : Resp) (d : Word) : SameBlock s (t.respond r d) :=
  ⟨⟨h.operands.cmd, h.operands.imgdim, h.operands.kdim, h.operands.anchor, h.operands.kram, h.operands.srcmem⟩,
    h.status, h.ctrl, h.dstmem, h.scan⟩

/-- A read leaves the block as it was, and the agenda (R44, R48). -/
theorem hostRead_frame (addr : Addr) (size : BitVec 2) (s : State) :
    SameBlock s (hostRead addr size s) ∧ (hostRead addr size s).agenda = s.agenda := by
  unfold hostRead
  split
  · exact ⟨⟨⟨rfl, rfl, rfl, rfl, rfl, rfl⟩, rfl, rfl, rfl, rfl, rfl⟩, rfl⟩
  · exact ⟨(s.countDraw_sameBlock _).respond _ _, by simp⟩

/-- Everything a host write can do (R45): an ERROR; nothing (ID, DSTMEM, or the BUSY lock); the flags of STATUS; CTRL; a
command; an operand register; or bytes of KRAM or SRCMEM. -/
theorem hostWrite_cases {addr : Addr} {size : BitVec 2} {v : Word} {s t : State}
    (h : hostWrite addr size v s = .next t) :
    (target addr size = none ∧ t = s.respond .error 0#32) ∨
    (∃ g, target addr size = some g ∧ t = s.respond .okay 0#32) ∨
    (target addr size = some (.reg .status) ∧ t = (s.respond .okay 0#32).acknowledge v) ∨
    (target addr size = some (.reg .ctrl) ∧ t = { s.respond .okay 0#32 with ctrl := Ctrl.ofWord v }) ∨
    (target addr size = some (.reg .cmd) ∧ exec (decodeWord v) (s.respond .okay 0#32) = .next t) ∨
    (s.status.busy = false ∧
      (t = { s.respond .okay 0#32 with imgdim := ImgDim.ofWord v } ∨
        t = { s.respond .okay 0#32 with kdim := KDim.ofWord v } ∨
        t = { s.respond .okay 0#32 with anchor := Anchor.ofWord v })) ∨
    (s.status.busy = false ∧ ∃ name off n, name ≠ .dstmem ∧ target addr size = some (.bytes name off n) ∧
      t = (s.respond .okay 0#32).writeArray name off v n) := by
  unfold hostWrite at h
  cases hg : target addr size with
  | none => exact .inl ⟨rfl, by simpa [hg] using h.symm⟩
  | some g =>
    simp only [hg] at h
    cases g with
    | reg r =>
      cases r <;> simp only [writeTarget, regWrite, Host.Outcome.next.injEq, State.respond_status] at h
      · exact .inr (.inl ⟨_, rfl, h.symm⟩)
      · exact .inr (.inr (.inr (.inr (.inl ⟨rfl, h⟩))))
      · exact .inr (.inr (.inl ⟨rfl, h.symm⟩))
      · exact .inr (.inr (.inr (.inl ⟨rfl, h.symm⟩)))
      all_goals
        cases hb : s.status.busy <;> simp only [hb, Bool.false_eq_true, if_true, if_false] at h
        · exact .inr (.inr (.inr (.inr (.inr (.inl ⟨rfl, by simp [← h]⟩)))))
        · exact .inr (.inl ⟨_, rfl, h.symm⟩)
    | bytes name off n =>
      simp only [writeTarget, Host.Outcome.next.injEq, State.respond_status] at h
      cases hb : s.status.busy <;> simp only [hb, Bool.false_eq_true, if_true, if_false] at h
      · by_cases hd : name = .dstmem
        · subst hd
          exact .inr (.inl ⟨_, rfl, h.symm⟩)
        · exact .inr (.inr (.inr (.inr (.inr (.inr ⟨rfl, name, off, n, hd, rfl, h.symm⟩)))))
      · exact .inr (.inl ⟨_, rfl, h.symm⟩)

/-- A host write always answers a next state. -/
theorem hostWrite_next (addr : Addr) (size : BitVec 2) (v : Word) (s : State) :
    ∃ t, hostWrite addr size v s = .next t := by
  unfold hostWrite
  cases target addr size with
  | none => exact ⟨_, rfl⟩
  | some g =>
    cases g with
    | reg r =>
      cases r
      case cmd =>
        rcases exec_cases (decodeWord v) with ⟨-, h⟩ | ⟨-, c, h⟩
        · exact ⟨_, h _⟩
        · exact ⟨_, h _⟩
      all_goals exact ⟨_, rfl⟩
    | bytes name off n => exact ⟨_, rfl⟩

/-- Only a 4-byte access reaches a register, the one at its address (R41, R46). -/
theorem target_reg {addr : Addr} {size : BitVec 2} {r : Reg} (h : target addr size = some (.reg r)) :
    size = 2#2 ∧ regAt addr.toNat = some r := by
  have key : ∀ n, mapAddr addr.toNat n = some (.reg r) → n = 4 ∧ regAt addr.toNat = some r := by
    intro n hn
    unfold mapAddr at hn
    split_ifs at hn with h1 h2
    · exact ⟨h2, by simpa using hn⟩
    all_goals simp at hn
  unfold target sizeBytes at h
  split_ifs at h with h0 h1 h2
  all_goals simp only [Option.ite_none_right_eq_some] at h
  · exact absurd (key 1 h.2).1 (by omega)
  · exact absurd (key 2 h.2).1 (by omega)
  · exact ⟨h2, (key 4 h.2).2⟩

/-- A 4-byte access at 0x00004 reaches CMD, and no other access does (R41, R46). -/
theorem target_cmd_iff (addr : Addr) (size : BitVec 2) :
    target addr size = some (.reg .cmd) ↔ addr = 0x00004#18 ∧ size = 2#2 := by
  constructor
  · intro h
    obtain ⟨hs, hr⟩ := target_reg h
    unfold regAt at hr
    split_ifs at hr with _ a <;> simp at hr
    exact ⟨BitVec.eq_of_toNat_eq (by simpa using a), hs⟩
  · rintro ⟨rfl, rfl⟩
    decide

/-- A 4-byte access at 0x00008 reaches STATUS, and no other access does (R41, R46). -/
theorem target_status_iff (addr : Addr) (size : BitVec 2) :
    target addr size = some (.reg .status) ↔ addr = 0x00008#18 ∧ size = 2#2 := by
  constructor
  · intro h
    obtain ⟨hs, hr⟩ := target_reg h
    unfold regAt at hr
    split_ifs at hr with _ _ a <;> simp at hr
    exact ⟨BitVec.eq_of_toNat_eq (by simpa using a), hs⟩
  · rintro ⟨rfl, rfl⟩
    decide

/-- A legal access of an array, by its number in the address map, reaches the bytes it names (R41). -/
theorem target_array {name : ArrayName} {size : BitVec 2} {a : Nat} (h : legalIndex name size a) :
    target (BitVec.ofNat 18 (arrayBase name + a)) size = some (.bytes name a (2 ^ size.toNat)) := by
  obtain ⟨h3, hal, hin⟩ := h
  have hs : 2 ^ size.toNat = 1 ∨ 2 ^ size.toNat = 2 ∨ 2 ^ size.toNat = 4 := by
    rcases size_cases size with rfl | rfl | rfl | rfl <;> simp at h3 ⊢
  have hb : sizeBytes size = some (2 ^ size.toNat) := by
    rcases size_cases size with rfl | rfl | rfl | rfl
    · rfl
    · rfl
    · rfl
    · exact absurd rfl h3
  have e : (BitVec.ofNat 18 (arrayBase name + a)).toNat = arrayBase name + a := by
    rw [BitVec.toNat_ofNat]
    apply Nat.mod_eq_of_lt
    cases name <;> simp only [arrayBase, arraySize] at hin ⊢ <;> omega
  have hz : (arrayBase name + a) % 2 ^ size.toNat = 0 := by
    rcases hs with hs | hs | hs <;> rw [hs] at hal ⊢ <;> cases name <;> simp only [arrayBase] <;> omega
  simp only [target, hb, e, hz, if_true]
  unfold mapAddr
  cases name <;> simp only [arraySize] at hin
  · rw [if_neg (by simp only [arrayBase]; omega), if_pos (by simp only [arrayBase]; omega)]
    simp [arrayBase]
  · rw [if_neg (by simp only [arrayBase]; omega), if_neg (by simp only [arrayBase]; omega),
      if_pos (by simp only [arrayBase]; omega)]
    simp [arrayBase]
  · rw [if_neg (by simp only [arrayBase]; omega), if_neg (by simp only [arrayBase]; omega),
      if_neg (by simp only [arrayBase]; omega), if_pos (by simp only [arrayBase]; omega)]
    simp [arrayBase]

/-- A write of a word to CMD is the command the word is, in the state with the response OKAY (R45, R70). -/
theorem hostStep_cmdWrite (v : Word) (s : State) :
    hostStep (cmdWrite v) s = exec (decodeWord v) (s.respond .okay 0#32) := by
  have h : target (cmdWrite v).addr (cmdWrite v).size = some (.reg .cmd) := (target_cmd_iff _ _).mpr ⟨rfl, rfl⟩
  simp only [hostStep, hostWrite, h, writeTarget, regWrite]
  rfl

end Sys2Proof.Machine
end

