-- ==== Sys2Proof/Laws/PerInstr.lean ====
section
/-! SUPPORT. What holds of every command, one lemma per constructor: the word the encoder gives is in the command's own row
of the opcode map (R74). -/

namespace Sys2Proof.Laws.EncodesInRow

open Sys2Proof

/-- The command's encoded word matches the row of the opcode map that bears its mnemonic (R74). -/
def Statement (i : Instr) : Prop :=
  ∃ r ∈ opcodeTable, r.mnemonic = i.mnemonic ∧ r.matchesWord (encodeWord i) = true

/-- The low four bits of a word of format `C` with GO = 1 are its opcode (R70). -/
theorem formatC_opcode (sel : Bool) (b : Border) (fill fid : Byte) :
    formatC sel b fill fid &&& 0x0000000F#32 = formatC sel b 0#8 0#8 := by
  apply BitVec.eq_of_getLsbD_eq
  intro i hi
  interval_cases i <;> simp only [formatC, BitVec.getLsbD_append, BitVec.getLsbD_and] <;> simp

/-- A row whose mask is the opcode and whose value is the opcode of `formatC` is that of every such word. -/
theorem matches_formatC (m : String) (sel : Bool) (b : Border) (fill fid : Byte) (v : Word)
    (h : formatC sel b 0#8 0#8 = v) :
    OpcodeRow.matchesWord ⟨m, v, 0x0000000F#32⟩ (formatC sel b fill fid) = true := by
  simp [OpcodeRow.matchesWord, formatC_opcode, h]

theorem nop : Statement .nop := ⟨⟨"NOP", 0x00000000#32, 0x00000001#32⟩, by decide, rfl, by decide⟩

theorem convRfl (fill fid : Byte) : Statement (.convRfl fill fid) :=
  ⟨⟨"CONV.RFL", 0x00000001#32, 0x0000000F#32⟩, by decide, rfl, matches_formatC _ _ _ _ _ _ (by decide)⟩

theorem filtRfl (fill fid : Byte) : Statement (.filtRfl fill fid) :=
  ⟨⟨"FILT.RFL", 0x00000003#32, 0x0000000F#32⟩, by decide, rfl, matches_formatC _ _ _ _ _ _ (by decide)⟩

theorem convRep (fill fid : Byte) : Statement (.convRep fill fid) :=
  ⟨⟨"CONV.REP", 0x00000005#32, 0x0000000F#32⟩, by decide, rfl, matches_formatC _ _ _ _ _ _ (by decide)⟩

theorem filtRep (fill fid : Byte) : Statement (.filtRep fill fid) :=
  ⟨⟨"FILT.REP", 0x00000007#32, 0x0000000F#32⟩, by decide, rfl, matches_formatC _ _ _ _ _ _ (by decide)⟩

theorem convWrp (fill fid : Byte) : Statement (.convWrp fill fid) :=
  ⟨⟨"CONV.WRP", 0x00000009#32, 0x0000000F#32⟩, by decide, rfl, matches_formatC _ _ _ _ _ _ (by decide)⟩

theorem filtWrp (fill fid : Byte) : Statement (.filtWrp fill fid) :=
  ⟨⟨"FILT.WRP", 0x0000000B#32, 0x0000000F#32⟩, by decide, rfl, matches_formatC _ _ _ _ _ _ (by decide)⟩

theorem convCst (fill fid : Byte) : Statement (.convCst fill fid) :=
  ⟨⟨"CONV.CST", 0x0000000D#32, 0x0000000F#32⟩, by decide, rfl, matches_formatC _ _ _ _ _ _ (by decide)⟩

theorem filtCst (fill fid : Byte) : Statement (.filtCst fill fid) :=
  ⟨⟨"FILT.CST", 0x0000000F#32, 0x0000000F#32⟩, by decide, rfl, matches_formatC _ _ _ _ _ _ (by decide)⟩

end Sys2Proof.Laws.EncodesInRow
end

