-- ==== Sys2Proof/Laws/Step.lean ====
section
/-! SUPPORT. What one step of the machine can do (R8). -/

namespace Sys2Proof.Machine

theorem step_nil {s : State} (h : s.agenda = []) : step s = engineStep s := by
  simp only [step, nextStep, h]

theorem step_cons {s : State} {e : Event} {rest : List Event} (h : s.agenda = e :: rest) :
    step s = takeEvent e (s.withAgenda rest) := by
  simp only [step, nextStep, h]

/-- A turn of a POLL leaves the block as it was; it goes on with the rest of the agenda, or with an engine step and itself
before the rest (R80; log 3). -/
theorem pollStep_frame (addr : Addr) (mask value : Word) (s : State) :
    SameBlock s (pollStep addr mask value s) ∧
      ((pollStep addr mask value s).agenda = s.agenda ∨
        (pollStep addr mask value s).agenda = .engine :: .poll addr mask value :: s.agenda) := by
  obtain ⟨hb, ha⟩ := hostRead_frame addr 2#2 s
  unfold pollStep
  simp only
  split
  · exact ⟨hb, .inl ha⟩
  · exact ⟨⟨⟨hb.operands.cmd, hb.operands.imgdim, hb.operands.kdim, hb.operands.anchor, hb.operands.kram,
      hb.operands.srcmem⟩, hb.status, hb.ctrl, hb.dstmem, hb.scan⟩, .inr (by simp [ha])⟩

/-- Everything a step can do: an engine step; a read or a turn of a POLL, which leave the block as it was; a host write; a
reset; or a power-on. -/
theorem step_cases {s t : State} (h : step s = .next t) :
    (s.agenda = [] ∧ engineStep s = .next t) ∨
    (∃ rest, s.agenda = .engine :: rest ∧ engineStep (s.withAgenda rest) = .next t) ∨
    ((∃ q rest, s.agenda = .host q :: rest ∧ q.write = false ∧ t.agenda = rest) ∨
        (∃ a m v rest, s.agenda = .poll a m v :: rest)) ∧ SameBlock s t ∨
    (∃ q rest, s.agenda = .host q :: rest ∧ q.write = true ∧
      hostWrite q.addr q.size q.wdata (s.withAgenda rest) = .next t) ∨
    (∃ rest, s.agenda = .reset :: rest ∧ t = (s.withAgenda rest).applyReset) ∨
    (∃ rest, s.agenda = .powerOn :: rest ∧ t = (s.withAgenda rest).applyPowerOn) := by
  cases ha : s.agenda with
  | nil => exact .inl ⟨rfl, by rw [← step_nil ha]; exact h⟩
  | cons e rest =>
    rw [step_cons ha] at h
    cases e with
    | host q =>
      cases hw : q.write with
      | true =>
        refine .inr (.inr (.inr (.inl ⟨q, rest, rfl, hw, ?_⟩)))
        simpa [takeEvent, hostStep, hw] using h
      | false =>
        have ht : t = hostRead q.addr q.size (s.withAgenda rest) := by
          simpa [takeEvent, hostStep, hw] using h.symm
        obtain ⟨hb, hg⟩ := hostRead_frame q.addr q.size (s.withAgenda rest)
        refine .inr (.inr (.inl ⟨.inl ⟨q, rest, rfl, hw, ?_⟩, ?_⟩))
        · simp [ht, hg]
        · rw [ht]
          exact ⟨⟨hb.operands.cmd, hb.operands.imgdim, hb.operands.kdim, hb.operands.anchor, hb.operands.kram,
            hb.operands.srcmem⟩, hb.status, hb.ctrl, hb.dstmem, hb.scan⟩
    | poll a m v =>
      have ht : t = pollStep a m v (s.withAgenda rest) := by
        simpa [takeEvent] using h.symm
      obtain ⟨hb, -⟩ := pollStep_frame a m v (s.withAgenda rest)
      refine .inr (.inr (.inl ⟨.inr ⟨a, m, v, rest, rfl⟩, ?_⟩))
      rw [ht]
      exact ⟨⟨hb.operands.cmd, hb.operands.imgdim, hb.operands.kdim, hb.operands.anchor, hb.operands.kram,
        hb.operands.srcmem⟩, hb.status, hb.ctrl, hb.dstmem, hb.scan⟩
    | engine => exact .inr (.inl ⟨rest, rfl, h⟩)
    | reset => exact .inr (.inr (.inr (.inr (.inl ⟨rest, rfl, by simpa [takeEvent] using h.symm⟩))))
    | powerOn => exact .inr (.inr (.inr (.inr (.inr ⟨rest, rfl, by simpa [takeEvent] using h.symm⟩))))

theorem runSteps_zero (s : State) : runSteps 0 s = .next s := rfl

theorem runSteps_succ_eq (n : Nat) (s : State) :
    runSteps (n + 1) s =
      match step s with
      | .next t => runSteps n t
      | .fault r => .fault r
      | .refused r => .refused r := by
  have e : core.step s = step s := rfl
  simp only [runSteps, Host.Core.run]
  cases h : step s with
  | next t => rw [e, h]
  | fault r => rw [e, h]; rfl
  | refused r => rw [e, h]; rfl

theorem runSteps_succ {s t : State} (n : Nat) (h : step s = .next t) : runSteps (n + 1) s = runSteps n t := by
  rw [runSteps_succ_eq, h]

/-- `a` steps and then `b` steps are `a + b` steps. -/
theorem runSteps_add {s t : State} (a b : Nat) (h : runSteps a s = .next t) : runSteps (a + b) s = runSteps b t := by
  induction a generalizing s with
  | zero =>
    rw [runSteps_zero, Host.Outcome.next.injEq] at h
    rw [h, Nat.zero_add]
  | succ a ih =>
    rw [show a + 1 + b = (a + b) + 1 by omega, runSteps_succ_eq]
    rw [runSteps_succ_eq] at h
    cases hs : step s with
    | next u =>
      rw [hs] at h
      exact ih h
    | fault r => simp [hs] at h
    | refused r => simp [hs] at h

end Sys2Proof.Machine
end

