-- ==== Sys2Proof/Laws/Registers.lean ====
section
/-! SUPPORT. The registers as words (R11 to R18), and the steps that write and read one. -/

namespace Sys2Proof.Machine

/-- A written IMGDIM word reads back with its fields (R16). -/
theorem ImgDim.word_ofWord (v : Word) : (ImgDim.ofWord v).word = v &&& 0x0000FFFF#32 := by
  apply BitVec.eq_of_getLsbD_eq
  intro i hi
  interval_cases i <;> simp only [ImgDim.word, ImgDim.ofWord, BitVec.getLsbD_append, BitVec.getLsbD_and] <;> simp

/-- A written KDIM word reads back with its fields (R17). -/
theorem KDim.word_ofWord (v : Word) : (KDim.ofWord v).word = v &&& 0x00000F0F#32 := by
  apply BitVec.eq_of_getLsbD_eq
  intro i hi
  interval_cases i <;> simp only [KDim.word, KDim.ofWord, BitVec.getLsbD_append, BitVec.getLsbD_and] <;> simp

/-- A written ANCHOR word reads back with its fields (R18). -/
theorem Anchor.word_ofWord (v : Word) : (Anchor.ofWord v).word = v &&& 0x00000F0F#32 := by
  apply BitVec.eq_of_getLsbD_eq
  intro i hi
  interval_cases i <;> simp only [Anchor.word, Anchor.ofWord, BitVec.getLsbD_append, BitVec.getLsbD_and] <;> simp

/-- A written CTRL word reads back with its field (R15). -/
theorem Ctrl.word_ofWord (v : Word) : (Ctrl.ofWord v).word = v &&& 0x00000001#32 := by
  apply BitVec.eq_of_getLsbD_eq
  intro i hi
  interval_cases i <;> simp only [Ctrl.word, Ctrl.ofWord, BitVec.getLsbD_append, BitVec.getLsbD_and] <;> simp

/-- The latch of a command word reads back with its fields and GO = 0 (R13). -/
theorem CmdLatch.word_fields (v : Word) {b : Border} (hb : b.code = borderField v) :
    (CmdLatch.mk (selField v) b (fillField v) (fidField v)).word = v &&& 0x00FFFF0E#32 := by
  apply BitVec.eq_of_getLsbD_eq
  intro i hi
  interval_cases i <;>
    simp only [CmdLatch.word, BitVec.getLsbD_append, BitVec.getLsbD_and, hb, selField, borderField, fillField,
      fidField] <;>
    simp

/-- A write to STATUS, field by field (R14). -/
theorem Status.writeOneToClear_fields (f : Status) (v : Word) :
    (f.writeOneToClear v).busy = f.busy ∧ (f.writeOneToClear v).done = (f.done && !v.getLsbD 1) ∧
      (f.writeOneToClear v).err = (f.err && !v.getLsbD 2) ∧
      (f.writeOneToClear v).errcode = if v.getLsbD 2 then 0#3 else f.errcode := by
  unfold Status.writeOneToClear
  generalize v.getLsbD 1 = b1
  generalize v.getLsbD 2 = b2
  cases b1 <;> cases b2 <;> simp

/-- The step of a legal write (R45). -/
theorem step_writeEvent {s : State} {z : BitVec 2} {a v : Nat} {rest : List Event} {g : Target}
    (ha : s.agenda = writeEvent z a v :: rest) (hg : target (BitVec.ofNat 18 a) z = some g) :
    step s = writeTarget g (BitVec.ofNat 32 v) ((s.withAgenda rest).respond .okay 0#32) := by
  rw [step_cons ha]
  simp only [writeEvent, takeEvent, hostStep, hostWrite, hg, if_true]

/-- The step that reads a register (R44). -/
theorem step_readRegister {s : State} {a : Nat} {rest : List Event} {r : Reg}
    (ha : s.agenda = readEvent 2#2 a :: rest) (hg : target (BitVec.ofNat 18 a) 2#2 = some (.reg r)) :
    step s = .next ((s.withAgenda rest).respond .okay ((s.withAgenda rest).regWord r)) := by
  rw [step_cons ha]
  simp only [readEvent, takeEvent, hostStep, hostRead, hg]
  rfl

/-- A step and then a register read: the response holds what the register reads as after the step. -/
theorem step_then_readRegister {s u : State} {a : Nat} {rest : List Event} {r : Reg} (h : step s = .next u)
    (ha : u.agenda = readEvent 2#2 a :: rest) (hg : target (BitVec.ofNat 18 a) 2#2 = some (.reg r)) :
    ∃ t, runSteps 2 s = .next t ∧ t.resp = some ⟨.okay, u.regWord r⟩ := by
  refine ⟨(u.withAgenda rest).respond .okay ((u.withAgenda rest).regWord r), ?_, ?_⟩
  · rw [runSteps_succ 1 h, runSteps_succ 0 (step_readRegister ha hg)]
    rfl
  · cases r <;> rfl

end Sys2Proof.Machine
end

