-- ==== Sys2Proof/Tests/Slice0.lean ====
section
/-! SUPPORT. Small tests of the model. Expected results come from spec/: the test vectors of 95_test_vectors.md (V<n>, E<n>,
its tables 2.2, 2.8 and 2.9), the reference table of R129, the encodings of R70 and R74, the examples of the rules named. -/

namespace Sys2Proof.Tests

open Sys2Proof Sys2Proof.Machine

/-! ## States built for the tests -/

/-- Bytes listed from an address on. -/
def cellsFrom (a : Nat) : List Nat → List Host.Cell
  | [] => []
  | b :: rest => (a, BitVec.ofNat 8 b) :: cellsFrom (a + 1) rest

/-- The KRAM bytes of raw weights, low byte first (R20). -/
def weightBytes : List Int → List Nat
  | [] => []
  | w :: rest => (w % 256).toNat :: (w / 256 % 256).toNat :: weightBytes rest

/-- An array that lists the given bytes from index 0 on. -/
def arrayOf (bytes : List Nat) : Memory := { cells := cellsFrom 0 bytes, redraws := [] }

/-- An idle block with an image, a kernel and an anchor, as the host would load them after power-on. -/
def block (w h : Nat) (pixels : List Nat) (kw kh ax ay : Nat) (weights : List Int) : State :=
  { State.reset with
    imgdim := ⟨BitVec.ofNat 8 (w - 1), BitVec.ofNat 8 (h - 1)⟩
    kdim := ⟨BitVec.ofNat 4 kw, BitVec.ofNat 4 kh⟩
    anchor := ⟨BitVec.ofNat 4 ax, BitVec.ofNat 4 ay⟩
    kram := arrayOf (weightBytes weights)
    srcmem := arrayOf pixels }

/-- The image of V1 to V8. -/
def row : List Nat := [10, 20, 30, 40, 50]

/-- The 3 x 3 image of table 2.2. -/
def square : List Nat := [10, 20, 30, 40, 50, 60, 70, 80, 90]

/-- The block of V1: the row, a 3 x 1 kernel 1, 0, 0, anchor (1, 0). -/
def v1 : State := block 5 1 row 3 1 1 0 [256, 0, 0]

/-- The block of V1 running a CONV command. -/
def v1Running (b : Border) (fill : Byte) : State := v1.running (convLatch b fill 0#8)

/-- A block running its command, at a scan position. -/
def scanAt (s : State) (ox oy : Byte) : State := { s with ox := ox, oy := oy }

/-- The output image of the command whose latch a state holds, with a kernel descriptor (R99). -/
def outputs (s : State) (kd : KernelEntry) : List Nat :=
  (List.range (s.width * s.height)).map fun k => (s.out kd (k % s.width : Nat) (k / s.width : Nat)).toNat

/-- The state a step answers, the given one where it answers none. -/
def after (o : Host.Outcome State Fault Refusal) (s : State) : State :=
  match o with
  | .next t => t
  | .fault _ => s
  | .refused _ => s

/-- STATUS and CMD as they read after a command word is written to CMD of a block. -/
def submitted (w : Word) (s : State) : Word × Word :=
  let t := after (step { s with agenda := [.host (cmdWrite w)] }) s;
  (t.status.word, t.cmd.word)

/-- The response to one read. -/
def readOf (size : BitVec 2) (addr : Nat) (s : State) : Option Response :=
  (after (step { s with agenda := [readEvent size addr] }) s).resp

/-- The state after one write. -/
def writeOf (size : BitVec 2) (addr v : Nat) (s : State) : State :=
  after (step { s with agenda := [writeEvent size addr v] }) s

/-! ## Decoding: words written out from R70 and R74 -/

theorem test_decode_nop : decodeWord 0xFFFFFFFE#32 = .nop := by decide
theorem test_decode_convRfl : decodeWord 0xFF0000F1#32 = .convRfl 0#8 0#8 := by decide
theorem test_decode_filtRfl : decodeWord 0x00050003#32 = .filtRfl 0#8 5#8 := by decide
theorem test_decode_convRep : decodeWord 0x00000005#32 = .convRep 0#8 0#8 := by decide
theorem test_decode_filtRep : decodeWord 0x00010007#32 = .filtRep 0#8 1#8 := by decide
theorem test_decode_convWrp : decodeWord 0x00000009#32 = .convWrp 0#8 0#8 := by decide
theorem test_decode_filtWrp : decodeWord 0x0006000B#32 = .filtWrp 0#8 6#8 := by decide
theorem test_decode_convCst : decodeWord 0x0000070D#32 = .convCst 7#8 0#8 := by decide
theorem test_decode_filtCst : decodeWord 0x00010A0F#32 = .filtCst 10#8 1#8 := by decide

/-- The bytes of a word, lowest address first (R42), and a fifth byte that is left over. -/
theorem test_decode_bytes :
    decode [0x0D#8, 0x07#8, 0x00#8, 0x00#8, 0xAA#8] = .ok (.convCst 7#8 0#8, [0xAA#8]) := by decide

/-- Fewer than four bytes are no command. -/
theorem test_decode_short : decode [0x0D#8, 0x07#8, 0x00#8] = .error .shortCommand := by decide

/-- The words of R113 and R153. -/
theorem test_encode : encodeWord (.convCst 7#8 0#8) = 0x0000070D#32 ∧
    encodeWord (.filtCst 10#8 1#8) = 0x00010A0F#32 := by decide

/-- The opcode table's match word of every row, decoded, is the row. -/
theorem test_decode_rows :
    opcodeTable.map (fun r => (decodeTableWord 32 r.value.toNat).map Instr.mnemonic) =
      opcodeTable.map fun r => some r.mnemonic := by decide

/-! ## WellFormed: an ill-formed term for each check -/

theorem test_wf_address : (HostLine.rd32 0x40000).wf = false ∧ (HostLine.rd16 0x40000).wf = false ∧
    (HostLine.rd8 0x40000).wf = false ∧ (HostLine.wr32 0x40000 0).wf = false ∧
    (HostLine.wr16 0x40000 0).wf = false ∧ (HostLine.wr8 0x40000 0).wf = false ∧
    (HostLine.poll 0x40000 0 0).wf = false := by decide

theorem test_wf_data : (HostLine.wr32 0 0x100000000).wf = false ∧ (HostLine.wr16 0x400 0x10000).wf = false ∧
    (HostLine.wr8 0x400 256).wf = false ∧ (HostLine.poll 8 0x100000000 0).wf = false ∧
    (HostLine.poll 8 0 0x100000000).wf = false := by decide

theorem test_wf_setimg : (HostLine.setimg 0 1).wf = false ∧ (HostLine.setimg 1 0).wf = false ∧
    (HostLine.setimg 257 1).wf = false ∧ (HostLine.setimg 1 257).wf = false := by decide

theorem test_wf_kernel : (HostLine.setk 16 1).wf = false ∧ (HostLine.setk 1 16).wf = false ∧
    (HostLine.seta 16 0).wf = false ∧ (HostLine.seta 0 16).wf = false := by decide

theorem test_wf_load : (HostLine.ldw 256 0).wf = false ∧ (HostLine.ldw 0 32768).wf = false ∧
    (HostLine.ldw 0 (-32769)).wf = false ∧ (HostLine.ldpix 65536 0).wf = false ∧
    (HostLine.ldpix 0 256).wf = false ∧ (HostLine.rdpix 65536).wf = false := by decide

theorem test_wf_command : (HostLine.convCst 256).wf = false ∧ (HostLine.filt .reflect 256).wf = false ∧
    (HostLine.filtCst 256 0).wf = false ∧ (HostLine.filtCst 0 256).wf = false ∧ (HostLine.irqen 2).wf = false := by
  decide

theorem test_wf_transaction :
    Transaction.wf { write := true, addr := 0x400#18, size := 3#2, wdata := 0#32 } = false := by decide

/-! ## The coordinate maps: R129 -/

theorem test_refl_3 : (List.range 17).map (fun (k : Nat) => refl ((k : Int) - 7) 3) =
    [0, 0, 1, 2, 2, 1, 0, 0, 1, 2, 2, 1, 0, 0, 1, 2, 2] := by decide

theorem test_refl_5 : (List.range 19).map (fun (k : Nat) => refl ((k : Int) - 7) 5) =
    [3, 4, 4, 3, 2, 1, 0, 0, 1, 2, 3, 4, 4, 3, 2, 1, 0, 0, 1] := by decide

theorem test_clampi_5 : (List.range 19).map (fun (k : Nat) => clampi ((k : Int) - 7) 0 4) =
    [0, 0, 0, 0, 0, 0, 0, 0, 1, 2, 3, 4, 4, 4, 4, 4, 4, 4, 4] := by decide

theorem test_mod_5 : (List.range 19).map (fun (k : Nat) => floorMod ((k : Int) - 7) 5) =
    [3, 4, 0, 1, 2, 3, 4, 0, 1, 2, 3, 4, 0, 1, 2, 3, 4, 0, 1] := by decide

/-- The examples of R5. -/
theorem test_floorDiv : floorDiv (-1) 256 = -1 ∧ floorDiv (-256) 256 = -1 ∧ floorDiv (-257) 256 = -2 := by decide

/-! ## The sampler in two dimensions: table 2.2 -/

/-- The sample at (px, py) of the 3 x 3 image under the four policies, FILL = 99. -/
def samples (px py : Int) : List Nat :=
  [Border.reflect, .replicate, .wrap, .constant].map fun b =>
    (((block 3 3 square 1 1 0 0 [256]).latch (convLatch b 99#8 0#8)).sample px py).toNat

theorem test_sample_corners : samples (-1) (-1) = [10, 10, 90, 99] ∧ samples 3 3 = [90, 90, 10, 99] := by decide

theorem test_sample_far : samples (-3) (-4) = [90, 10, 70, 99] ∧ samples 269 269 = [10, 90, 90, 99] := by decide

theorem test_sample_sides : samples (-1) 1 = [40, 40, 60, 99] ∧ samples 1 (-1) = [20, 20, 80, 99] ∧
    samples 1 1 = [50, 50, 50, 50] := by decide

/-! ## The output pixel function: rounding and saturation, table 2.4 -/

theorem test_pixelOf : [102400, 2560, -1280, 0, 128, 256, 384, 32640, 127, -128, -384, -129, 65025, 65535].map pixelOf =
    [255, 10, 0, 0, 1, 1, 2, 128, 0, 0, 0, 0, 254, 255] := by decide

/-- Anchor alignment, an even kernel, no flip: V20 and V23. -/
theorem test_out_anchor :
    (let s := (block 3 2 [1, 2, 3, 4, 5, 6] 2 2 0 0 [256, 512, 768, 1024]).latch (convLatch .constant 0#8 0#8);
      outputs s s.convKernel) = [37, 47, 21, 14, 17, 6] ∧
    (let s := (block 3 2 [1, 2, 3, 4, 5, 6] 2 2 1 1 [256, 512, 768, 1024]).latch (convLatch .constant 0#8 0#8);
      outputs s s.convKernel) = [4, 11, 18, 18, 37, 47] := by decide

/-! ## CONV commands: one accepting step and one engine step each -/

/-- V48, V57: accepted, BUSY alone set; CMD reads 0. -/
theorem test_convRfl_accepted : submitted 0xFF0000F1#32 v1 = (0x00000001#32, 0x00000000#32) := by decide

/-- V1, pixel 0: E2's "index -1 returns 10". -/
theorem test_convRfl_pixel :
    (after (engineStep (v1Running .reflect 0#8)) v1).byteAt .dstmem 0 = 10#8 := by decide

/-- V46: one past the last column is InvalidAnchor. -/
theorem test_convRep_anchor :
    submitted 0x00000005#32 (block 5 1 row 3 3 3 0 [256]) = (0x00000024#32, 0x00000004#32) := by decide

/-- V4, pixel 0: E3's "index -3 ... 10". -/
theorem test_convRep_pixel :
    (after (engineStep ((block 5 1 row 4 1 3 0 [256, 0, 0, 0]).running (convLatch .replicate 0#8 0#8))) v1).byteAt
      .dstmem 0 = 10#8 := by decide

/-- V47: InvalidAnchor on the row axis. -/
theorem test_convWrp_anchor :
    submitted 0x00000009#32 (block 5 1 row 3 3 0 3 [256]) = (0x00000024#32, 0x00000008#32) := by decide

/-- V6, pixel 0: E4's "index -1 resolves to sample at index 4 (50)". -/
theorem test_convWrp_pixel :
    (after (engineStep (v1Running .wrap 0#8)) v1).byteAt .dstmem 0 = 50#8 := by decide

/-- V50: InvalidKernel has priority over InvalidAnchor; the latch is stored all the same. -/
theorem test_convCst_kernel :
    submitted 0x0000000D#32 (block 5 1 row 3 0 5 0 [256]) = (0x00000014#32, 0x0000000C#32) := by decide

/-- V8, pixel 0. -/
theorem test_convCst_pixel :
    (after (engineStep (v1Running .constant 7#8)) v1).byteAt .dstmem 0 = 7#8 := by decide

/-! ## FILT commands: one accepting step each, and the output function with `KROM_REF` -/

/-- V52: UnknownFilter; the latch reads 0x00080002. -/
theorem test_filtRfl_unknown : submitted 0x00080003#32 v1 = (0x00000034#32, 0x00080002#32) := by decide

/-- V54: accepted whatever KDIM and ANCHOR hold. -/
theorem test_filtRep_accepted :
    submitted 0x00070007#32 (block 5 1 row 0 0 15 15 []) = (0x00000001#32, 0x00070006#32) := by decide

/-- P4: FILT.WRP 8. -/
theorem test_filtWrp_unknown : submitted 0x0008000B#32 v1 = (0x00000034#32, 0x0008000A#32) := by decide

/-- V53: UnknownFilter; KDIM and ANCHOR not looked at. -/
theorem test_filtCst_unknown :
    submitted 0x00FF000F#32 (block 5 1 row 0 0 15 15 []) = (0x00000034#32, 0x00FF000E#32) := by decide

/-- The output image of FILT with an entry of `KROM_REF` on the 3 x 3 image. -/
def refOutputs (b : Border) (fid : Byte) : Option (List Nat) :=
  (Config.kromRef fid).map (outputs ((block 3 3 square 0 0 0 0 []).latch (filtLatch b 0#8 fid)))

/-- V65, FILT.RFL 5. -/
theorem test_filtRfl_sobel : refOutputs .reflect 5#8 = some [40, 80, 40, 40, 80, 40, 40, 80, 40] := by decide

/-- V61, FILT.REP 1. -/
theorem test_filtRep_laplacian : refOutputs .replicate 1#8 = some [0, 0, 0, 0, 0, 30, 60, 90, 120] := by decide

/-- V67, FILT.WRP 7: ties round up. -/
theorem test_filtWrp_highpass : refOutputs .wrap 7#8 = some [0, 0, 0, 0, 0, 8, 15, 23, 30] := by decide

/-- V60, FILT.CST 0, 0. -/
theorem test_filtCst_edge : refOutputs .constant 0#8 = some [0, 0, 40, 30, 0, 70, 160, 110, 220] := by decide

/-! ## NOP, the step, and a program's first step from reset -/

/-- V56: nothing, latch unchanged. -/
theorem test_nop_nothing : submitted 0xFFFFFFFE#32 v1 = (v1.status.word, v1.cmd.word) := by decide

/-- While BUSY = 1 a CMD write does nothing (R114). -/
theorem test_busy_drops_command :
    submitted 0x00000005#32 (v1Running .wrap 0#8) = (0x00000001#32, 0x00000008#32) := by decide

/-- The very next step after withFetchWord runs the command: FILT.RFL 0 starts, CONV.RFL fails with InvalidKernel (V51). -/
theorem test_fetch_from_reset :
    (after (step (State.reset.withFetchWord 32 0x00000003)) State.reset).status.word = 0x00000001#32 ∧
    (after (step (State.reset.withFetchWord 32 0x00000001)) State.reset).status.word = 0x00000014#32 := by decide

/-- The scan position at the end of a row, and the end of a run (R100). -/
theorem test_engine_moves :
    (let t := after (engineStep (scanAt ((block 2 2 [1, 2, 3, 4] 1 1 0 0 [256]).running (convLatch .wrap 0#8 0#8)) 1#8 0#8)) v1;
      (t.ox, t.oy, t.status.word)) = (0#8, 1#8, 0x00000001#32) ∧
    (let t := after (engineStep (scanAt ((block 2 2 [1, 2, 3, 4] 1 1 0 0 [256]).running (convLatch .wrap 0#8 0#8)) 1#8 1#8)) v1;
      t.status.word) = 0x00000002#32 := by decide

/-! ## The host port: table 2.8 -/

/-- The start state of table 2.8. -/
def portStart : State :=
  { State.reset with imgdim := ⟨2#8, 1#8⟩, kram := arrayOf [0x00, 0x01, 0x00, 0xFF] }

theorem test_port_registers : readOf 2#2 0x00000 portStart = some ⟨.okay, 0x43324401#32⟩ ∧
    readOf 2#2 0x00010 portStart = some ⟨.okay, 0x00000102#32⟩ ∧
    readOf 1#2 0x00002 portStart = some ⟨.error, 0#32⟩ ∧ readOf 0#2 0x00000 portStart = some ⟨.error, 0#32⟩ := by decide

theorem test_port_unmapped : readOf 2#2 0x0001C portStart = some ⟨.error, 0#32⟩ ∧
    readOf 2#2 0x003FC portStart = some ⟨.error, 0#32⟩ ∧ readOf 2#2 0x00600 portStart = some ⟨.error, 0#32⟩ ∧
    readOf 2#2 0x0FFFC portStart = some ⟨.error, 0#32⟩ ∧ readOf 0#2 0x30000 portStart = some ⟨.error, 0#32⟩ := by decide

theorem test_port_kram : readOf 2#2 0x00400 portStart = some ⟨.okay, 0xFF000100#32⟩ ∧
    readOf 1#2 0x00402 portStart = some ⟨.okay, 0xFF00#32⟩ ∧ readOf 0#2 0x00401 portStart = some ⟨.okay, 0x01#32⟩ ∧
    readOf 1#2 0x00401 portStart = some ⟨.error, 0#32⟩ := by decide

theorem test_port_edges : readOf 2#2 0x1FFFE portStart = some ⟨.error, 0#32⟩ ∧
    (readOf 0#2 0x1FFFF portStart).map (·.resp) = some .okay ∧
    (readOf 2#2 0x2FFFC portStart).map (·.resp) = some .okay ∧
    (readOf 2#2 0x005FC portStart).map (·.resp) = some .okay := by decide

theorem test_port_register_writes : (writeOf 2#2 0x00010 0xFFFF0302 portStart).imgdim.word = 0x00000302#32 ∧
    (writeOf 2#2 0x00014 0xFFFFFFFF portStart).kdim.word = 0x00000F0F#32 ∧
    (writeOf 2#2 0x00018 0x0000ABCD portStart).anchor.word = 0x00000B0D#32 ∧
    (writeOf 2#2 0x0000C 0xFFFFFFFE portStart).ctrl.word = 0x00000000#32 ∧
    (writeOf 2#2 0x0000C 0xFFFFFFFF portStart).ctrl.word = 0x00000001#32 := by decide

theorem test_port_refused_writes : (writeOf 1#2 0x00010 0x0505 portStart).resp = some ⟨.error, 0#32⟩ ∧
    (writeOf 1#2 0x00010 0x0505 portStart).imgdim.word = 0x00000102#32 ∧
    (writeOf 1#2 0x00004 0x0001 portStart).resp = some ⟨.error, 0#32⟩ ∧
    (writeOf 2#2 0x00000 0xDEADBEEF portStart).resp = some ⟨.okay, 0#32⟩ ∧
    (writeOf 2#2 0x20000 0x12345678 portStart).dstmem = portStart.dstmem := by decide

/-- R60: weight 0 = -1.0, byte by byte. -/
theorem test_port_write_bytes : (writeOf 1#2 0x00400 0xFF00 portStart).byteAt .kram 0 = 0x00#8 ∧
    (writeOf 1#2 0x00400 0xFF00 portStart).byteAt .kram 1 = 0xFF#8 := by decide

/-! ## Flags, `irq`, reset: table 2.9 and R190 -/

/-- After `CONV.RFL` with KDIM = 0, IRQEN raises `irq` at once; W1C of DONE leaves ERR; W1C of ERR clears ERRCODE. -/
theorem test_flags :
    (let s := State.reset.failedWith (convLatch .reflect 0#8 0#8) .invalidKernel;
      let s1 := writeOf 2#2 0x0000C 1 s;
      (s.irq, s1.irq, (writeOf 2#2 0x00008 2 s1).status.word, (writeOf 2#2 0x00008 4 s1).status.word,
        (writeOf 2#2 0x00008 4 s1).irq)) =
      (false, true, 0x14#32, 0x00#32, false) := by decide

/-- A reset that cuts a run: the registers are 0, SRCMEM and KRAM stay, DSTMEM bytes from W*H on stay (R190). -/
theorem test_reset :
    (let s := { v1Running .wrap 0#8 with agenda := [.reset], dstmem := arrayOf [1, 2, 3, 4, 5, 6] };
      let t := after (step s) s;
      (t.status.word, t.imgdim.word, t.srcmem, t.kram, t.byteAt .dstmem 5)) =
      (0#32, 0#32, v1.srcmem, v1.kram, 6#8) := by decide

/-- A host program is the list of its lines' transactions (R80, R81): FILT.CST 1, 10 and LDW 3, -512 (P2). -/
theorem test_lines : lineEvent (.filtCst 1 10) = .host (cmdWrite 0x00010A0F#32) ∧
    lineEvent (.ldw 3 (-512)) = writeEvent 1#2 0x00406 0xFE00 := by decide

/-! ## Witnesses: concrete states and operands that meet the hypotheses of the statements, clause by clause -/

/-- A state with the given events next. -/
def withEvents (s : State) (events : List Event) : State := s.withAgenda events

/-- The block of V1, running, before its last pixel. -/
def v1Last : State := scanAt (v1Running .reflect 0#8) 4#8 0#8

/-- A 2 x 2 image under a 1 x 1 kernel, running. -/
def small : State := (block 2 2 [1, 2, 3, 4] 1 1 0 0 [256]).running (convLatch .wrap 0#8 0#8)

/-- A state is followed by a next state. -/
abbrev steps (o : Host.Outcome State Fault Refusal) : Prop := ∃ t, o = .next t

theorem test_witness_DecodeOfEncode : (Instr.filtCst 255#8 255#8).wf = true ∧ Instr.nop.wf = true := by decide

/-- SETIMG, SETK, SETA, LDW and LDPIX at the ends of their ranges, on an idle block. -/
theorem test_witness_OperandLinesSetTheirOperands :
    v1.status.busy = false ∧ (HostLine.setimg 256 1).wf = true ∧ (HostLine.setk 15 0).wf = true ∧
      (HostLine.seta 0 15).wf = true ∧ (HostLine.ldw 255 (-32768)).wf = true ∧ (HostLine.ldw 0 32767).wf = true ∧
      (HostLine.ldpix 65535 255).wf = true ∧
      (v1.load [.setimg 256 1]).agenda = lineEvent (.setimg 256 1) :: [] ∧
      (v1.load [.setk 15 0]).agenda = lineEvent (.setk 15 0) :: [] ∧
      (v1.load [.seta 0 15]).agenda = lineEvent (.seta 0 15) :: [] ∧
      (v1.load [.ldw 255 (-32768)]).agenda = lineEvent (.ldw 255 (-32768)) :: [] ∧
      (v1.load [.ldpix 65535 255]).agenda = lineEvent (.ldpix 65535 255) :: [] := by decide

theorem test_witness_StepRunsTheDecodedCommand :
    (State.reset.withFetchWord 32 0x0000000D).agenda = .host (cmdWrite 0x0000000D#32) :: [] := by decide

theorem test_witness_NopHasNoEffect :
    (0xFFFFFFFE#32 : Word).getLsbD 0 = false ∧ (0#32 : Word).getLsbD 0 = false ∧
      (withEvents v1 [.host (cmdWrite 0xFFFFFFFE#32)]).agenda = .host (cmdWrite 0xFFFFFFFE#32) :: [] ∧
      (v1Running .wrap 0#8).status.busy = true := by decide

/-- The anchor on the first and on the last cell (V48, V55). -/
theorem test_witness_ConvCommandsStartTheirRun :
    (let s := block 1 1 [0] 15 15 14 14 [];
      s.status.busy = false ∧ s.anchor.ax.toNat < s.kdim.kw.toNat ∧ s.anchor.ay.toNat < s.kdim.kh.toNat) ∧
    (let s := block 1 1 [0] 1 1 0 0 [];
      s.status.busy = false ∧ s.anchor.ax.toNat < s.kdim.kw.toNat ∧ s.anchor.ay.toNat < s.kdim.kh.toNat) := by decide

theorem test_witness_FiltCommandsStartTheirRun :
    v1.status.busy = false ∧ (0#8 : Byte).toNat < 8 ∧ (7#8 : Byte).toNat < 8 := by decide

/-- The first unknown identifier and the last, and a registered one. -/
theorem test_witness_UnknownFilterExactlyUnregistered :
    v1.status.busy = false ∧ 8 ≤ (8#8 : Byte).toNat ∧ 8 ≤ (255#8 : Byte).toNat ∧
      steps (exec (filtInstr .wrap 0#8 8#8) v1) ∧ steps (exec (filtInstr .wrap 0#8 7#8) v1) :=
  ⟨by decide, by decide, by decide, ⟨_, rfl⟩, ⟨_, rfl⟩⟩

/-- For CONV an idle block; for any registry, an entry of it. -/
theorem test_witness_InvalidKernelExactlyZeroSize :
    v1.status.busy = false ∧
      (∃ kd, (v1.latch (filtLatch .reflect 0#8 1#8)).kernel Config.kromRef = some kd) ∧
      (∃ kd, (v1.latch (convLatch .reflect 0#8 1#8)).kernel Config.kromRef = some kd ∧ kd.kw.toNat = 3) :=
  ⟨by decide, ⟨_, rfl⟩, ⟨_, rfl, by decide⟩⟩

/-- A kernel with cells: anchor one past the last column (V46), and at the last. -/
theorem test_witness_InvalidAnchorExactlyOutside :
    (let s := block 5 1 row 3 3 3 0 [];
      s.status.busy = false ∧ s.kdim.kw.toNat ≠ 0 ∧ s.kdim.kh.toNat ≠ 0) ∧
    (let s := block 5 1 row 3 3 2 2 [];
      s.status.busy = false ∧ s.kdim.kw.toNat ≠ 0 ∧ s.kdim.kh.toNat ≠ 0) ∧
    ∃ kd, (v1.latch (filtLatch .reflect 0#8 1#8)).kernel Config.kromRef = some kd ∧ kd.kw.toNat ≠ 0 ∧ kd.kh.toNat ≠ 0 :=
  ⟨by decide, by decide, _, rfl, by decide, by decide⟩

/-- Each of the five clauses: an absent entry; a zero KDIM with the anchor outside too; an ill-formed registry's zero-sized
entry, and its entry with the anchor outside; a CONV with the anchor one past the last cell. -/
theorem test_witness_ErrorPriority :
    v1.status.busy = false ∧
      ((filtLatch .reflect 0#8 8#8).sel = true ∧ Config.kromRef 8#8 = none) ∧
      ((convLatch .reflect 0#8 0#8).sel = false ∧ ((⟨0#4, 3#4⟩ : KDim).kw = 0#4 ∨ (⟨0#4, 3#4⟩ : KDim).kh = 0#4)) ∧
      (∃ (krom : Krom) (e : KernelEntry), (filtLatch .reflect 0#8 0#8).sel = true ∧ krom 0#8 = some e ∧
        (e.kw = 0#4 ∨ e.kh = 0#4)) ∧
      (∃ (krom : Krom) (e : KernelEntry), (filtLatch .reflect 0#8 0#8).sel = true ∧ krom 0#8 = some e ∧
        e.kw ≠ 0#4 ∧ e.kh ≠ 0#4 ∧ (e.kw ≤ e.ax ∨ e.kh ≤ e.ay)) ∧
      ((convLatch .reflect 0#8 0#8).sel = false ∧ (⟨3#4, 3#4⟩ : KDim).kw ≠ 0#4 ∧ (⟨3#4, 3#4⟩ : KDim).kh ≠ 0#4 ∧
        ((⟨3#4, 3#4⟩ : KDim).kw ≤ (⟨2#4, 3#4⟩ : Anchor).ax ∨ (⟨3#4, 3#4⟩ : KDim).kh ≤ (⟨2#4, 3#4⟩ : Anchor).ay)) :=
  ⟨by decide, by decide, by decide,
    ⟨fun _ => some ⟨0#4, 3#4, 0#4, 0#4, fun _ _ => 0#16⟩, _, by decide, rfl, by decide⟩,
    ⟨fun _ => some ⟨3#4, 3#4, 3#4, 0#4, fun _ _ => 0#16⟩, _, by decide, rfl, by decide, by decide, by decide⟩,
    by decide⟩

theorem test_witness_FailedCommandTouchesOnlyLatchAndStatus :
    State.reset.status.busy = false ∧ Instr.convRfl 0#8 0#8 ≠ .nop ∧
      ∃ t, exec (.convRfl 0#8 0#8) State.reset = .next t ∧ t.status.err = true :=
  ⟨by decide, by decide, _, rfl, by decide⟩

/-- A command that starts a run, one that fails, one on a busy block, and NOP. -/
theorem test_witness_CommandFrame :
    (∃ t, exec (.convRfl 0#8 0#8) v1 = .next t ∧ t.status.busy = true) ∧
      (∃ t, exec (.filtRfl 0#8 9#8) v1 = .next t ∧ t.status.busy = false) ∧
      (∃ t, exec (.convWrp 0#8 0#8) small = .next t) ∧ small.status.busy = true ∧ steps (exec .nop v1) :=
  ⟨⟨_, rfl, by decide⟩, ⟨_, rfl, by decide⟩, ⟨_, rfl⟩, by decide, ⟨_, rfl⟩⟩

theorem test_witness_CommandLatchReadsBack :
    (withEvents v1 [.host (cmdWrite 0xFFFFFFFF#32), readEvent 2#2 0x00004]).agenda =
        .host (cmdWrite 0xFFFFFFFF#32) :: readEvent 2#2 0x00004 :: [] ∧
      v1.status.busy = false ∧ (0xFFFFFFFF#32 : Word).getLsbD 0 = true ∧ (0xFFFFFFFE#32 : Word).getLsbD 0 = false ∧
      small.status.busy = true := by decide

/-- ERR set, and the code of a set ERR changed, by a command on an idle block. -/
theorem test_witness_ErrorsOnlyAtAcceptance :
    (∃ t, step (State.reset.withFetchWord 32 1) = .next t ∧ t.status.err = true) ∧
      (State.reset.withFetchWord 32 1).status.err = false ∧
      ∃ t, step ((v1.failedWith (convLatch .reflect 0#8 0#8) .invalidKernel).withFetchWord 32 0x00090003) = .next t ∧
        t.status.err = true ∧
        t.status.errcode ≠ (v1.failedWith (convLatch .reflect 0#8 0#8) .invalidKernel).status.errcode :=
  ⟨⟨_, rfl, by decide⟩, by decide, _, rfl, by decide, by decide⟩

/-- Within a row, at the end of a row, and at the last pixel. -/
theorem test_witness_EngineStepWritesOnePixel :
    (∃ kd, (scanAt small 0#8 0#8).kernel Config.krom = some kd) ∧ (∃ kd, (scanAt small 1#8 0#8).kernel Config.krom = some kd) ∧
      (∃ kd, (scanAt small 1#8 1#8).kernel Config.krom = some kd) ∧ small.status.busy = true ∧
      (0#8 : Byte).toNat + 1 < small.width ∧ (0#8 : Byte).toNat + 1 < small.height ∧
      (1#8 : Byte).toNat < small.width ∧ (1#8 : Byte).toNat < small.height ∧
      ¬(1#8 : Byte).toNat + 1 < small.width ∧ ¬(1#8 : Byte).toNat + 1 < small.height :=
  ⟨⟨_, rfl⟩, ⟨_, rfl⟩, ⟨_, rfl⟩, by decide, by decide, by decide, by decide, by decide, by decide, by decide⟩

theorem test_witness_AcceptedCommandComputesTheImage :
    v1.status.busy = false ∧ v1.agenda = [] ∧
      ∃ u, exec (.convRfl 0#8 0#8) v1 = .next u ∧ u.status.busy = true :=
  ⟨by decide, by decide, _, rfl, by decide⟩

/-- A running block meets the invariant. -/
theorem small_inv : small.Inv :=
  ⟨by decide, by decide, by decide, by decide, by decide, fun _ => rfl, by decide, by decide, by decide⟩

/-- A running block before its last pixel meets it too. -/
theorem v1Last_inv : v1Last.Inv :=
  ⟨by decide, by decide, by decide, by decide, by decide, fun _ => rfl, by decide, by decide, by decide⟩

theorem test_witness_RunEndsAfterItsRemainingPixels :
    small.Inv ∧ small.status.busy = true ∧ small.agenda = [] ∧ 0 < small.width * small.height - small.scanIndex ∧
      v1Last.Inv ∧ v1Last.status.busy = true ∧ v1Last.agenda = [] :=
  ⟨small_inv, by decide, by decide, by decide, v1Last_inv, by decide, by decide⟩

theorem test_witness_HostCannotDisturbARun :
    (withEvents small [writeEvent 2#2 0x00010 5]).status.busy = true ∧
      (∃ t rest, (withEvents small [writeEvent 2#2 0x00010 5]).agenda = .host t :: rest) ∧
      steps (step (withEvents small [writeEvent 2#2 0x00010 5])) :=
  ⟨by decide, ⟨_, _, rfl⟩, ⟨_, rfl⟩⟩

/-- Two states that differ in DSTMEM, CTRL and the flags, and beyond the image and the kernel. -/
theorem test_witness_OutputDependsOnlyOnOperands :
    (let t : State := { v1Last with
        ctrl := ⟨true⟩, dstmem := arrayOf [9], srcmem := arrayOf (row ++ [77]), kram := arrayOf [0, 1, 0, 0, 0, 0, 5] };
      t.imgdim = v1.imgdim ∧ t.cmd.border = v1.cmd.border ∧ t.cmd.fill = v1.cmd.fill ∧ t.kdim = v1.kdim ∧
        t.anchor = v1.anchor ∧ (∀ a, a < v1.width * v1.height → t.byteAt .srcmem a = v1.byteAt .srcmem a) ∧
        ∀ a, a < 2 * (v1.kdim.kw.toNat * v1.kdim.kh.toNat) → t.byteAt .kram a = v1.byteAt .kram a) := by decide

/-- Another FILL under a mapping policy, another FID under constant, both for CONV; another FILL for FILT; and an engine step
of the run. -/
theorem test_witness_UnusedFieldsDoNotMatter :
    (small.cmd.border ≠ .constant ∧ small.cmd.sel = false ∧ steps (engineStep small)) ∧
      ((v1Running .constant 3#8).cmd.border = .constant ∧ (3#8 : Byte) = (v1Running .constant 3#8).cmd.fill ∧
        (v1Running .constant 3#8).cmd.sel = false ∧ (9#8 : Byte) ≠ (v1Running .constant 3#8).cmd.fid ∧
        steps (engineStep (v1Running .constant 3#8))) ∧
      (let s := v1.running (filtLatch .wrap 3#8 1#8);
        s.cmd.border ≠ .constant ∧ s.cmd.sel = true ∧ (1#8 : Byte) = s.cmd.fid ∧ steps (engineStep s)) :=
  ⟨⟨by decide, by decide, _, rfl⟩, ⟨by decide, by decide, by decide, by decide, _, rfl⟩, by decide, by decide, by decide,
    _, rfl⟩

/-- The largest kernel with the anchor on its last cell. -/
theorem test_witness_AccumulatorFitsThirtyTwoBits :
    (let kd := (block 1 1 [255] 15 15 14 14 []).convKernel;
      kd.ax.toNat < kd.kw.toNat ∧ kd.ay.toNat < kd.kh.toNat ∧ 14 < kd.kw.toNat ∧ 14 < kd.kh.toNat) := by decide

theorem test_witness_PixelRoundsTiesUpAndSaturates :
    ((0 : Int) ≤ 0 ∧ (0 : Int) ≤ 255) ∧ ((0 : Int) ≤ 255 ∧ (255 : Int) ≤ 255) := by decide

/-- The anchor moved one cell right, one cell down, and both (V20, V22, V23). -/
theorem test_witness_AnchorMovesTheOutput :
    (let kd := KernelEntry.mk 2#4 2#4 0#4 0#4 fun _ _ => 256#16;
      let kx := KernelEntry.mk 2#4 2#4 1#4 0#4 fun _ _ => 256#16;
      let ky := KernelEntry.mk 2#4 2#4 0#4 1#4 fun _ _ => 256#16;
      let kxy := KernelEntry.mk 2#4 2#4 1#4 1#4 fun _ _ => 256#16;
      (kx.kw = kd.kw ∧ kx.kh = kd.kh ∧ kx.raw = kd.raw ∧ kx.ax.toNat = kd.ax.toNat + 1 ∧ kx.ay = kd.ay) ∧
        (ky.kw = kd.kw ∧ ky.kh = kd.kh ∧ ky.raw = kd.raw ∧ ky.ax = kd.ax ∧ ky.ay.toNat = kd.ay.toNat + 1) ∧
        kxy.kw = kd.kw ∧ kxy.kh = kd.kh ∧ kxy.raw = kd.raw ∧ kxy.ax.toNat = kd.ax.toNat + 1 ∧
        kxy.ay.toNat = kd.ay.toNat + 1) :=
  ⟨⟨rfl, rfl, rfl, rfl, rfl⟩, ⟨rfl, rfl, rfl, rfl, rfl⟩, rfl, rfl, rfl, rfl, rfl⟩

/-- P1's kernel, at the last pixel. -/
theorem test_witness_IdentityKernelCopiesTheImage :
    (let s := block 3 2 [1, 2, 3, 250, 251, 252] 1 1 0 0 [256];
      s.convKernel.kw = 1#4 ∧ s.convKernel.kh = 1#4 ∧ s.convKernel.ax = 0#4 ∧ s.convKernel.ay = 0#4 ∧
        s.convKernel.raw 0 0 = 0x0100#16 ∧ 2 < s.width ∧ 1 < s.height) := by decide

/-- The kernel of V2: 0, 0, 1. -/
theorem test_witness_UnitWeightKernelShiftsTheImage :
    (let kd := (block 5 1 row 3 1 1 0 [0, 0, 256]).convKernel;
      2 < kd.kw.toNat ∧ 0 < kd.kh.toNat ∧ kd.raw 2 0 = 0x0100#16 ∧
        ∀ i, i < kd.kw.toNat → ∀ j, j < kd.kh.toNat → i ≠ 2 ∨ j ≠ 0 → kd.raw i j = 0#16) := by decide

/-- The one-pixel image of table 2.5 under a mapping policy. -/
theorem test_witness_OnePixelImageUsesTheWeightSum :
    (block 1 1 [77] 3 3 1 1 []).imgdim = ⟨0#8, 0#8⟩ ∧ (block 1 1 [77] 3 3 1 1 []).cmd.border ≠ .constant := by decide

/-- A zero-sum kernel on a flat image (P4): a mapping policy; constant with the image's value; constant with another value
and the window just inside the image. -/
theorem test_witness_ZeroSumKernelIsZeroOnFlatImage :
    (let s := block 3 3 (List.replicate 9 10) 3 3 1 1 [-256, -256, -256, -256, 2048, -256, -256, -256, -256];
      s.convKernel.rawSum = 0 ∧ (∀ a, a < s.width * s.height → s.byteAt .srcmem a = 10#8) ∧
        s.cmd.border ≠ .constant ∧ (s.latch (convLatch .constant 10#8 0#8)).cmd.fill = 10#8 ∧
        (0 ≤ (1 : Int) - s.convKernel.ax.toNat ∧ (1 : Int) - s.convKernel.ax.toNat + s.convKernel.kw.toNat ≤ s.width ∧
          0 ≤ (1 : Int) - s.convKernel.ay.toNat ∧
          (1 : Int) - s.convKernel.ay.toNat + s.convKernel.kh.toNat ≤ s.height)) := by decide

/-- Each policy, and coordinates at the edges of the two clauses of the constant one. -/
theorem test_witness_SamplerMapsEachAxis :
    (v1Running .reflect 0#8).cmd.border = .reflect ∧ (v1Running .replicate 0#8).cmd.border = .replicate ∧
      (v1Running .wrap 0#8).cmd.border = .wrap ∧ (v1Running .constant 0#8).cmd.border = .constant ∧
      ((-1 : Int) < 0 ∨ (v1.width : Int) ≤ -1) ∧ ((v1.width : Int) ≤ 5) ∧ (0 : Int) ≤ 4 ∧ (4 : Int) < v1.width ∧
      (0 : Int) ≤ 0 ∧ (0 : Int) < v1.height := by decide

theorem test_witness_ReflectIsRepeatedMirroring :
    (1 : Int) ≤ 5 ∧ (0 : Int) ≤ 4 ∧ (4 : Int) < 5 ∧ (-1 : Int) < 0 ∧ (5 : Int) ≤ 5 := by decide

theorem test_witness_CoordinateMapLaws :
    (1 : Int) ≤ 1 ∧ (0 : Int) ≤ 0 ∧ (0 : Int) ≤ 1 - 1 ∧ (-7 : Int) ≤ 11 ∧ (1 : Int) < 2 ∧ (0 : Int) < 4 ∧
      (0 : Int) ≤ 4 ∧ (4 : Int) ≤ v1.width - 1 ∧ (0 : Int) ≤ v1.height - 1 := by decide

/-- KRAM bytes that hold the nine weights of a 3 x 3 entry, row by row. -/
def entryBytes (e : KernelEntry) : Memory :=
  { cells := (List.range 18).map fun k => (k, (e.raw (k / 2 % 3) (k / 6)).extractLsb' (8 * (k % 2)) 8)
    redraws := [] }

theorem weightOf_extract (w : Weight) : weightOf (w.extractLsb' 0 8) (w.extractLsb' 8 8) = w := by
  apply BitVec.eq_of_getLsbD_eq
  intro i hi
  interval_cases i <;> simp only [weightOf, BitVec.getLsbD_append, BitVec.getLsbD_extractLsb'] <;> simp

/-- The hardware's own entry 1, its weights put in KRAM. -/
theorem test_witness_FiltEqualsConvOfItsEntry :
    v1.status.busy = false ∧ v1.agenda = [] ∧
      ∃ (e : KernelEntry) (m : Memory) (s' : State), Config.krom 1#8 = some e ∧
        s' = v1.withConvOperands ⟨e.kw, e.kh⟩ ⟨e.ax, e.ay⟩ m ∧
        ∀ i j, i < e.kw.toNat → j < e.kh.toNat → s'.kramWeight (j * e.kw.toNat + i) = e.raw i j := by
  obtain ⟨e, he, hw, hh, -, -⟩ := krom_registered (f := 1#8) (by decide)
  refine ⟨by decide, by decide, e, entryBytes e, _, he, rfl, ?_⟩
  intro i j hi hj
  rw [hw] at hi
  rw [hh] at hj
  have hi' : i < 3 := hi
  have hj' : j < 3 := hj
  rw [hw]
  interval_cases i <;> interval_cases j <;> exact weightOf_extract _

/-- A FILT command that starts a run, and an engine step of such a run. -/
theorem test_witness_FiltLeavesConvOperandsAlone :
    steps (exec (filtInstr .reflect 0#8 1#8) v1) ∧ (v1.running (filtLatch .reflect 0#8 1#8)).cmd.sel = true ∧
      steps (engineStep (v1.running (filtLatch .reflect 0#8 1#8))) :=
  ⟨⟨_, rfl⟩, by decide, ⟨_, rfl⟩⟩

/-- An access is illegal as R47 lists it. -/
abbrev illegalAccess (addr : Addr) (size : BitVec 2) : Prop :=
  let n := 2 ^ size.toNat
  let a := addr.toNat
  size = 3#2 ∨ a % n ≠ 0 ∨ (0x0001C ≤ a ∧ a ≤ 0x003FF) ∨ (0x00600 ≤ a ∧ a ≤ 0x0FFFF) ∨ 0x30000 ≤ a ∨
    (a ≤ 0x0001B ∧ n ≠ 4)

/-- Each reason of R47 at the ends of its ranges, and the legal accesses beside them. -/
theorem test_witness_IllegalAccessGetsErrorAndDoesNothing :
    illegalAccess 0x00400#18 3#2 ∧ illegalAccess 0x00401#18 1#2 ∧ illegalAccess 0x0001C#18 2#2 ∧
      illegalAccess 0x003FF#18 0#2 ∧ illegalAccess 0x00600#18 0#2 ∧ illegalAccess 0x0FFFF#18 0#2 ∧
      illegalAccess 0x30000#18 2#2 ∧ illegalAccess 0x3FFFF#18 0#2 ∧ illegalAccess 0x0001A#18 1#2 ∧
      ¬illegalAccess 0x00018#18 2#2 ∧ ¬illegalAccess 0x00400#18 0#2 ∧ ¬illegalAccess 0x005FC#18 2#2 ∧
      ¬illegalAccess 0x10000#18 0#2 ∧ ¬illegalAccess 0x2FFFF#18 0#2 ∧
      (∃ t rest, (withEvents v1 [readEvent 2#2 0x00018]).agenda = .host t :: rest) ∧
      steps (step (withEvents v1 [readEvent 2#2 0x00018])) :=
  ⟨by decide, by decide, by decide, by decide, by decide, by decide, by decide, by decide, by decide, by decide,
    by decide, by decide, by decide, by decide, ⟨_, _, rfl⟩, ⟨_, rfl⟩⟩

theorem test_witness_ReadsChangeNothing :
    ∃ t rest, t.write = false ∧ (withEvents small [readEvent 2#2 0x20000]).agenda = .host t :: rest :=
  ⟨_, _, rfl, rfl⟩

/-- Accesses of one, two and four bytes, at the ends of the three arrays. -/
theorem legalIndex_edges :
    legalIndex .kram 0#2 511 ∧ legalIndex .kram 1#2 0 ∧ legalIndex .srcmem 1#2 0 ∧ legalIndex .srcmem 2#2 65532 ∧
      legalIndex .dstmem 2#2 65532 ∧ legalIndex .dstmem 1#2 0 ∧ legalIndex .srcmem 0#2 65535 :=
  ⟨⟨by decide, by decide, by decide⟩, ⟨by decide, by decide, by decide⟩, ⟨by decide, by decide, by decide⟩,
    ⟨by decide, by decide, by decide⟩, ⟨by decide, by decide, by decide⟩, ⟨by decide, by decide, by decide⟩,
    by decide, by decide, by decide⟩

/-- One, two and four bytes, at the ends of the arrays (0x005FF, 0x10000, 0x2FFFC), KRAM of a busy block too; and RDPIX of
the last pixel. -/
theorem test_witness_ArrayReadsAreLittleEndian :
    (legalIndex .kram 0#2 511 ∧ (withEvents small [readEvent 0#2 0x005FF]).agenda = readEvent 0#2 (arrayBase .kram + 511) :: []) ∧
      (legalIndex .srcmem 1#2 0 ∧ (withEvents v1 [readEvent 1#2 0x10000]).agenda = readEvent 1#2 (arrayBase .srcmem + 0) :: []) ∧
      (legalIndex .dstmem 2#2 65532 ∧ v1.status.busy = false ∧
        (withEvents v1 [readEvent 2#2 0x2FFFC]).agenda = readEvent 2#2 (arrayBase .dstmem + 65532) :: []) ∧
      (HostLine.rdpix 65535).wf = true ∧ (v1.load [.rdpix 65535]).agenda = lineEvent (.rdpix 65535) :: [] :=
  ⟨⟨legalIndex_edges.1, by decide⟩, ⟨legalIndex_edges.2.2.1, by decide⟩,
    ⟨legalIndex_edges.2.2.2.2.1, by decide, by decide⟩, by decide, by decide⟩

/-- The first weight of KRAM and the last word of SRCMEM, and indices beside the stored bytes. -/
theorem test_witness_ArrayWritesStoreTheirBytes :
    v1.status.busy = false ∧
      (legalIndex .kram 1#2 0 ∧ ArrayName.kram ≠ .dstmem ∧ 1 < 2 ^ (1#2 : BitVec 2).toNat ∧
        (withEvents v1 [writeEvent 1#2 0x00400 7]).agenda =
          writeEvent 1#2 (arrayBase .kram + 0) (7#32 : Word).toNat :: []) ∧
      (legalIndex .srcmem 2#2 65532 ∧ ArrayName.srcmem ≠ .dstmem ∧ 65531 < 65532 ∧
        (withEvents v1 [writeEvent 2#2 0x1FFFC 7]).agenda =
          writeEvent 2#2 (arrayBase .srcmem + 65532) (7#32 : Word).toNat :: []) :=
  ⟨by decide, ⟨legalIndex_edges.2.1, by decide, by decide, by decide⟩,
    ⟨legalIndex_edges.2.2.2.1, by decide, by decide, by decide⟩⟩

/-- Each locked address, the ends of the two locked arrays, and the two registers that are not locked. -/
theorem test_witness_BusyLockDropsWrites :
    small.status.busy = true ∧
      (∀ addr ∈ [0x00004, 0x00010, 0x00014, 0x00018, 0x0000C, 0x00008],
        (withEvents small [writeEvent 2#2 addr 0xFFFFFFFF]).agenda =
          writeEvent 2#2 addr (0xFFFFFFFF#32 : Word).toNat :: []) ∧
      (legalIndex .kram 0#2 511 ∧ (withEvents small [writeEvent 0#2 0x005FF 1]).agenda =
        writeEvent 0#2 (arrayBase .kram + 511) (1#32 : Word).toNat :: []) ∧
      (legalIndex .srcmem 0#2 65535 ∧ (withEvents small [writeEvent 0#2 0x1FFFF 1]).agenda =
        writeEvent 0#2 (arrayBase .srcmem + 65535) (1#32 : Word).toNat :: []) :=
  ⟨by decide, by decide, ⟨legalIndex_edges.1, by decide⟩, legalIndex_edges.2.2.2.2.2.2, by decide⟩

/-- The first and the last byte of DSTMEM. -/
theorem test_witness_DstmemIgnoresHostWrites :
    (0x20000 ≤ (0x20000#18 : Addr).toNat ∧ (0x20000#18 : Addr).toNat ≤ 0x2FFFF ∧ (2#2 : BitVec 2) ≠ 3#2 ∧
        (0x20000#18 : Addr).toNat % 2 ^ (2#2 : BitVec 2).toNat = 0) ∧
      (0x20000 ≤ (0x2FFFF#18 : Addr).toNat ∧ (0x2FFFF#18 : Addr).toNat ≤ 0x2FFFF ∧ (0#2 : BitVec 2) ≠ 3#2 ∧
        (0x2FFFF#18 : Addr).toNat % 2 ^ (0#2 : BitVec 2).toNat = 0) ∧
      ∃ t rest, t.write = true ∧ t.addr = 0x2FFFF#18 ∧ t.size = 0#2 ∧
        (withEvents v1 [writeEvent 0#2 0x2FFFF 7]).agenda = .host t :: rest :=
  ⟨by decide, by decide, _, _, rfl, rfl, rfl, rfl⟩

/-- The first two bytes of DSTMEM, and the last word. -/
theorem test_witness_DstmemReadsWhileBusyAreFree :
    small.status.busy = true ∧
      (legalIndex .dstmem 1#2 0 ∧ (withEvents small [readEvent 1#2 0x20000]).agenda = readEvent 1#2 (0x20000 + 0) :: []) ∧
      (legalIndex .dstmem 2#2 65532 ∧
        (withEvents small [readEvent 2#2 0x2FFFC]).agenda = readEvent 2#2 (0x20000 + 65532) :: []) :=
  ⟨by decide, ⟨legalIndex_edges.2.2.2.2.2.1, by decide⟩, legalIndex_edges.2.2.2.2.1, by decide⟩

/-- Each register's clause, with a word of ones; CTRL and ID of a busy block too. -/
theorem test_witness_RegistersReadBackTheirFields :
    v1.status.busy = false ∧ small.status.busy = true ∧
      (∀ a ∈ [0x00010, 0x00014, 0x00018, 0x0000C, 0x00000],
        (withEvents v1 [writeEvent 2#2 a (0xFFFFFFFF#32 : Word).toNat, readEvent 2#2 a]).agenda =
          writeEvent 2#2 a (0xFFFFFFFF#32 : Word).toNat :: readEvent 2#2 a :: []) ∧
      ∀ a ∈ [0x0000C, 0x00000],
        (withEvents small [writeEvent 2#2 a (0xFFFFFFFF#32 : Word).toNat, readEvent 2#2 a]).agenda =
          writeEvent 2#2 a (0xFFFFFFFF#32 : Word).toNat :: readEvent 2#2 a :: [] := by decide

/-- Each register's clause, on an idle block; CTRL and ID of a busy block too. -/
theorem test_witness_RegisterWritesTouchOnlyTheirRegister :
    v1.status.busy = false ∧ small.status.busy = true ∧
      (∀ a ∈ [0x00010, 0x00014, 0x00018, 0x0000C, 0x00000],
        (withEvents v1 [writeEvent 2#2 a (0xFFFFFFFF#32 : Word).toNat]).agenda =
          writeEvent 2#2 a (0xFFFFFFFF#32 : Word).toNat :: []) ∧
      ∀ a ∈ [0x0000C, 0x00000],
        (withEvents small [writeEvent 2#2 a (0xFFFFFFFF#32 : Word).toNat]).agenda =
          writeEvent 2#2 a (0xFFFFFFFF#32 : Word).toNat :: [] := by decide

theorem test_witness_StatusReadsItsFlags :
    (withEvents small [readEvent 2#2 0x00008]).agenda = readEvent 2#2 0x00008 :: [] := by decide

theorem test_witness_StatusWriteOneToClear :
    (withEvents small [writeEvent 2#2 0x00008 (6#32 : Word).toNat]).agenda =
      writeEvent 2#2 0x00008 (6#32 : Word).toNat :: [] := by decide

/-- The block of V1 with a failed command's flags. -/
def v1Failed : State := v1.failedWith (convLatch .reflect 0#8 0#8) .invalidKernel

/-- The block of V1 after a completed run. -/
def v1Done : State := after (step v1Last) v1Last

/-- A step for each clause: BUSY set; BUSY cleared and DONE set by the last pixel, BUSY cleared by a reset; DONE cleared by a
command, by a write to STATUS, and by a reset. -/
theorem test_witness_FlagsChangeOnlyAsListed :
    ((v1.withFetchWord 32 1).status.busy = false ∧
        ∃ t, step (v1.withFetchWord 32 1) = .next t ∧ t.status.busy = true) ∧
      (v1Last.status.busy = true ∧ v1Last.status.done = false ∧
        ∃ t, step v1Last = .next t ∧ t.status.busy = false ∧ t.status.done = true) ∧
      ((withEvents v1Last [.reset]).status.busy = true ∧
        ∃ t, step (withEvents v1Last [.reset]) = .next t ∧ t.status.busy = false) ∧
      v1Done.status.done = true ∧
      (∃ t, step (v1Done.withFetchWord 32 1) = .next t ∧ t.status.done = false) ∧
      (∃ t, step (withEvents v1Done [writeEvent 2#2 0x00008 2]) = .next t ∧ t.status.done = false) ∧
      ∃ t, step (withEvents v1Done [.reset]) = .next t ∧ t.status.done = false :=
  ⟨⟨by decide, _, rfl, by decide⟩, ⟨by decide, by decide, _, rfl, by decide, by decide⟩,
    ⟨by decide, _, rfl, by decide⟩, by decide, ⟨_, rfl, by decide⟩, ⟨_, rfl, by decide⟩, _, rfl, by decide⟩

/-- A step for each clause about ERR and ERRCODE: set by a command; cleared by a command, by a write to STATUS and by a
power-on; a code that changes. -/
theorem test_witness_FlagsChangeOnlyAsListed_err :
    ((v1.withFetchWord 32 0x00090003).status.err = false ∧
        ∃ t, step (v1.withFetchWord 32 0x00090003) = .next t ∧ t.status.err = true) ∧
      v1Failed.status.err = true ∧
      (∃ t, step (v1Failed.withFetchWord 32 1) = .next t ∧ t.status.err = false) ∧
      (∃ t, step (withEvents v1Failed [writeEvent 2#2 0x00008 4]) = .next t ∧ t.status.err = false) ∧
      (∃ t, step (withEvents v1Failed [.powerOn]) = .next t ∧ t.status.err = false) ∧
      ∃ t, step (v1Failed.withFetchWord 32 0x00090003) = .next t ∧
        t.status.errcode ≠ (v1Failed.withFetchWord 32 0x00090003).status.errcode :=
  ⟨⟨by decide, _, rfl, by decide⟩, by decide, ⟨_, rfl, by decide⟩, ⟨_, rfl, by decide⟩, ⟨_, rfl, by decide⟩, _, rfl,
    by decide⟩

/-- IE = 1 with a command that fails, one that starts a run, and the last pixel of a run; and IE = 0. -/
theorem test_witness_IrqFollowsTheFlags :
    (let s : State := { v1 with ctrl := ⟨true⟩ };
      s.ctrl.ie = true ∧ s.status.busy = false ∧ Instr.filtRfl 0#8 9#8 ≠ .nop ∧ steps (exec (.filtRfl 0#8 9#8) s) ∧
        steps (exec (.filtRfl 0#8 0#8) s)) ∧
    (let s : State := { v1Last with ctrl := ⟨true⟩ };
      s.ctrl.ie = true ∧ s.status.busy = true ∧ ∃ t, engineStep s = .next t ∧ t.status.busy = false) ∧
    v1.ctrl.ie = false :=
  ⟨⟨by decide, by decide, by decide, ⟨_, rfl⟩, ⟨_, rfl⟩⟩, ⟨by decide, by decide, _, rfl, by decide⟩, by decide⟩

/-- A reset that cuts a run, one of an idle block, and a power-on; a byte at W*H. -/
theorem test_witness_ResetStepLeavesResetRegisters :
    (withEvents small [.reset]).agenda = .reset :: [] ∧ (withEvents small [.reset]).status.busy = true ∧
      (withEvents small [.reset]).width * (withEvents small [.reset]).height ≤ 4 ∧
      (withEvents v1 [.reset]).agenda = .reset :: [] ∧ (withEvents v1 [.reset]).status.busy = false ∧
      (withEvents small [.powerOn]).agenda = .powerOn :: [] := by decide

theorem test_witness_StateAfterReset : (7#8 : Byte).toNat < 8 := by decide

theorem test_witness_EveryStepKeepsTheInvariant : small.Inv ∧ steps (step small) ∧ v1Last.Inv ∧ steps (step v1Last) :=
  ⟨small_inv, ⟨_, rfl⟩, v1Last_inv, ⟨_, rfl⟩⟩

theorem test_witness_NoStuckState :
    small.Inv ∧ ∃ q rest, (withEvents small [readEvent 2#2 0x20000]).agenda = .host q :: rest :=
  ⟨small_inv, _, _, rfl⟩

/-- An engine step, and a host write, of a running block. -/
theorem test_witness_OperandsAreFrozenDuringARun :
    small.status.busy = true ∧ steps (step small) ∧ (∀ rest, small.agenda ≠ .reset :: rest) ∧
      (∀ rest, small.agenda ≠ .powerOn :: rest) ∧ steps (step (withEvents small [writeEvent 2#2 0x00400 7])) ∧
      (∀ rest, (withEvents small [writeEvent 2#2 0x00400 7]).agenda ≠ .reset :: rest) :=
  ⟨by decide, ⟨_, rfl⟩, fun rest h => by simp [small, block, State.running, State.reset] at h,
    fun rest h => by simp [small, block, State.running, State.reset] at h, ⟨_, rfl⟩,
    fun rest h => by simp [withEvents, writeEvent] at h⟩

/-- An engine step that changes byte 0 of DSTMEM. -/
theorem test_witness_DstmemHasOneWriter :
    (let s : State := { small with dstmem := arrayOf [99] };
      s.Inv ∧ ∃ t, step s = .next t ∧ t.byteAt .dstmem 0 ≠ s.byteAt .dstmem 0) :=
  ⟨⟨by decide, by decide, by decide, by decide, by decide, fun _ => rfl, by decide, by decide, by decide⟩,
    _, rfl, by decide⟩

/-- A host write that changes SRCMEM. -/
theorem test_witness_InputArraysChangeOnlyByHostWrites :
    ∃ t, step (withEvents v1 [writeEvent 0#2 0x10000 99]) = .next t ∧
      (t.kram ≠ (withEvents v1 [writeEvent 0#2 0x10000 99]).kram ∨
        t.srcmem ≠ (withEvents v1 [writeEvent 0#2 0x10000 99]).srcmem) :=
  ⟨_, rfl, .inr (by decide)⟩

theorem test_witness_WaitEnds :
    (withEvents small [lineEvent .wait]).Inv ∧ (withEvents small [lineEvent .wait]).status.busy = true ∧
      (withEvents small [lineEvent .wait]).agenda = [lineEvent .wait] :=
  ⟨⟨by decide, by decide, by decide, by decide, by decide, fun _ => rfl, by decide, by decide, by decide⟩,
    by decide, by decide⟩

end Sys2Proof.Tests
end

section
/-! SUPPORT. What a step does to the flags, the operands and the arrays (R24, R31, R50), and the statements about the
state that follow from it. -/

namespace Sys2Proof.Machine

/-! ## What a submitted command leaves -/

/-- A command on an idle block fails, or its run starts and the checks have passed (R91, R96). -/
theorem submitTo_idle_cases (krom : Krom) (c : CmdLatch) {s : State} (h : s.status.busy = false) :
    (∃ e, submitTo krom c s = s.failedWith c e) ∨
      (submitTo krom c s = s.running c ∧ (s.latch c).checkCommand krom = none) := by
  rw [submitTo_idle h]
  cases hc : (s.latch c).checkCommand krom with
  | some e => exact .inl ⟨e, rfl⟩
  | none => exact .inr ⟨rfl, rfl⟩

/-- A command on an idle block is stored in the latch, whether it fails or not (R91). -/
theorem submitTo_idle_cmd (krom : Krom) (c : CmdLatch) {s : State} (h : s.status.busy = false) :
    (submitTo krom c s).cmd = c := by
  rcases submitTo_idle_cases krom c h with ⟨e, he⟩ | ⟨hr, -⟩
  · rw [he]; rfl
  · rw [hr]; rfl

/-- The command of a CMD word answers a next state with the same agenda; it stores the word's fields on an idle block
where GO = 1, and leaves the latch otherwise (R13, R50, R77, R114). -/
theorem exec_decodeWord_latch (v : Word) (s : State) :
    ∃ u, exec (decodeWord v) s = .next u ∧ u.agenda = s.agenda ∧
      (s.status.busy = false → v.getLsbD 0 = true → u.cmd.word = v &&& 0x00FFFF0E#32) ∧
      (s.status.busy = true ∨ v.getLsbD 0 = false → u.cmd = s.cmd) := by
  cases hv : v.getLsbD 0 with
  | false => exact ⟨s, by rw [decodeWord_nop hv]; rfl, rfl, by simp, fun _ => rfl⟩
  | true =>
    cases hb : s.status.busy with
    | true => exact ⟨s, exec_busy _ hb, rfl, by simp, fun _ => rfl⟩
    | false =>
      obtain ⟨b, hcode, hexec⟩ := exec_decodeWord hv
      obtain ⟨-, -, -, -, -, -, -, hagenda, -, -⟩ :=
        submitTo_frame Config.krom ⟨selField v, b, fillField v, fidField v⟩ s
      refine ⟨_, hexec s, hagenda, fun _ _ => ?_, by simp⟩
      rw [submitTo_idle_cmd _ _ hb, CmdLatch.word_fields v hcode]

/-! ## What each kind of step leaves alone -/

theorem engineStep_sameOperands {s t : State} (h : engineStep s = .next t) : SameOperands s t := by
  rcases engineStep_cases h with ⟨-, rfl⟩ | ⟨-, kd, -, rfl⟩
  · exact SameOperands.refl _
  · exact enginePixel_sameOperands s kd

theorem SameOperands.withAgenda (s : State) (rest : List Event) : SameOperands s (s.withAgenda rest) :=
  ⟨rfl, rfl, rfl, rfl, rfl, rfl⟩

theorem engineStep_ctrl {s t : State} (h : engineStep s = .next t) : t.ctrl = s.ctrl := by
  rcases engineStep_cases h with ⟨-, rfl⟩ | ⟨-, kd, -, rfl⟩
  · rfl
  · exact enginePixel_ctrl s kd

/-- While BUSY = 1 a host write changes none of the operands (R50). -/
theorem hostWrite_sameOperands_of_busy {addr : Addr} {size : BitVec 2} {v : Word} {s t : State}
    (hb : s.status.busy = true) (h : hostWrite addr size v s = .next t) : SameOperands s t := by
  rcases hostWrite_cases h with ⟨-, rfl⟩ | ⟨-, -, rfl⟩ | ⟨-, rfl⟩ | ⟨-, rfl⟩ | ⟨-, hexec⟩ | ⟨hidle, -⟩ | ⟨hidle, -⟩
  iterate 4 exact ⟨rfl, rfl, rfl, rfl, rfl, rfl⟩
  · rw [exec_busy _ (by simpa using hb), Host.Outcome.next.injEq] at hexec
    subst hexec
    exact ⟨rfl, rfl, rfl, rfl, rfl, rfl⟩
  iterate 2 simp [hb] at hidle

/-- No command changes DSTMEM in its host step (R95, R96). -/
theorem exec_dstmem {i : Instr} {s t : State} (h : exec i s = .next t) : t.dstmem = s.dstmem := by
  rcases exec_cases i with ⟨-, hexec⟩ | ⟨-, c, hexec⟩ <;> rw [hexec, Host.Outcome.next.injEq] at h <;> subst h
  · rfl
  · obtain ⟨-, -, -, -, -, -, hdst, -⟩ := submitTo_frame Config.krom c s
    exact hdst

/-- No host write changes DSTMEM (R51). -/
theorem hostWrite_dstmem {addr : Addr} {size : BitVec 2} {v : Word} {s t : State}
    (h : hostWrite addr size v s = .next t) : t.dstmem = s.dstmem := by
  rcases hostWrite_cases h with ⟨-, rfl⟩ | ⟨-, -, rfl⟩ | ⟨-, rfl⟩ | ⟨-, rfl⟩ | ⟨-, hexec⟩ | ⟨-, rfl | rfl | rfl⟩ |
    ⟨-, name, off, n, -, -, rfl⟩
  iterate 4 rfl
  · exact (exec_dstmem hexec).trans rfl
  iterate 3 rfl
  · cases name <;> rfl

/-! ## STATUS over one step (R24) -/

/-- A host write leaves STATUS, clears what a write to STATUS names, or is a command that an idle block accepts, which
leaves DONE cleared (R14, R91). -/
theorem hostWrite_status_cases {addr : Addr} {size : BitVec 2} {v : Word} {s t : State}
    (h : hostWrite addr size v s = .next t) :
    t.status = s.status ∨
    (target addr size = some (.reg .status) ∧ t.status = s.status.writeOneToClear v) ∨
    (target addr size = some (.reg .cmd) ∧ s.status.busy = false ∧ v.getLsbD 0 = true ∧ t.status.done = false) := by
  rcases hostWrite_cases h with ⟨-, rfl⟩ | ⟨-, -, rfl⟩ | ⟨hg, rfl⟩ | ⟨-, rfl⟩ | ⟨hg, hexec⟩ | ⟨-, rfl | rfl | rfl⟩ |
    ⟨-, name, off, n, -, -, rfl⟩
  iterate 2 exact .inl rfl
  · exact .inr (.inl ⟨hg, rfl⟩)
  · exact .inl rfl
  · cases hv : v.getLsbD 0 with
    | false =>
      rw [decodeWord_nop hv] at hexec
      cases hexec
      exact .inl rfl
    | true =>
      cases hb : s.status.busy with
      | true =>
        rw [exec_busy _ (by simpa using hb)] at hexec
        cases hexec
        exact .inl rfl
      | false =>
        obtain ⟨b, -, hsubmit⟩ := exec_decodeWord hv
        rw [hsubmit] at hexec
        cases hexec
        refine .inr (.inr ⟨hg, rfl, rfl, ?_⟩)
        rcases submitTo_idle_cases Config.krom ⟨selField v, b, fillField v, fidField v⟩
          (s := s.respond .okay 0#32) hb with ⟨e, he⟩ | ⟨hr, -⟩
        · rw [he]; rfl
        · rw [hr]; rfl
  iterate 3 exact .inl rfl
  · cases name <;> exact .inl rfl

/-- The engine's step leaves STATUS, or completes a run (R100). -/
theorem engineStep_status_cases {s t : State} (h : engineStep s = .next t) :
    t.status = s.status ∨ (s.status.busy = true ∧ t.status = s.status.completed) := by
  rcases engineStep_cases h with ⟨-, rfl⟩ | ⟨hb, kd, -, rfl⟩
  · exact .inl rfl
  · have hpos := enginePixel_position s kd
    split_ifs at hpos
    · exact .inl hpos.2.2
    · exact .inl hpos.2.2
    · exact .inr ⟨hb, hpos.2.2⟩

/-- A legal host write that reaches CMD is the write of its word to CMD (R41). -/
theorem eq_cmdWrite_of_target {q : Transaction} (hw : q.write = true) (hg : target q.addr q.size = some (.reg .cmd)) :
    q = cmdWrite q.wdata := by
  obtain ⟨write, addr, size, wdata⟩ := q
  obtain ⟨rfl, rfl⟩ := (target_cmd_iff _ _).mp hg
  cases hw
  rfl

/-- A legal host write that reaches STATUS is the write of its word to 0x00008 (R41). -/
theorem eq_writeEvent_of_target {q : Transaction} (hw : q.write = true)
    (hg : target q.addr q.size = some (.reg .status)) : Event.host q = writeEvent 2#2 0x00008 q.wdata.toNat := by
  obtain ⟨write, addr, size, wdata⟩ := q
  obtain ⟨rfl, rfl⟩ := (target_status_iff _ _).mp hg
  cases hw
  simp [writeEvent]

/-- Everything a step can do to STATUS: nothing; complete a run; clear what a write to STATUS names; accept a command;
or reset it (R24). -/
theorem step_status_cases {s t : State} (h : step s = .next t) :
    t.status = s.status ∨
    (s.engineDue ∧ s.status.busy = true ∧ t.status = s.status.completed) ∨
    (∃ (v : Word) (rest : List Event), s.agenda = writeEvent 2#2 0x00008 v.toNat :: rest ∧
      t.status = s.status.writeOneToClear v) ∨
    (s.accepting ∧ t.status.done = false) ∨
    (s.resetting ∧ t.status = State.reset.status) := by
  rcases step_cases h with ⟨ha, hstep⟩ | ⟨rest, ha, hstep⟩ | ⟨-, hblock⟩ | ⟨q, rest, ha, hw, hwrite⟩ |
    ⟨rest, ha, rfl⟩ | ⟨rest, ha, rfl⟩
  · rcases engineStep_status_cases hstep with hs | ⟨hb, hs⟩
    · exact .inl hs
    · exact .inr (.inl ⟨.inl ha, hb, hs⟩)
  · rcases engineStep_status_cases hstep with hs | ⟨hb, hs⟩
    · exact .inl hs
    · exact .inr (.inl ⟨.inr ⟨rest, ha⟩, hb, hs⟩)
  · exact .inl hblock.status
  · rcases hostWrite_status_cases hwrite with hs | ⟨hg, hs⟩ | ⟨hg, hb, hgo, hdone⟩
    · exact .inl hs
    · exact .inr (.inr (.inl ⟨q.wdata, rest, by rw [ha, eq_writeEvent_of_target hw hg], hs⟩))
    · exact .inr (.inr (.inr (.inl ⟨⟨hb, q.wdata, rest, by rw [ha, ← eq_cmdWrite_of_target hw hg], hgo⟩, hdone⟩)))
  · exact .inr (.inr (.inr (.inr ⟨⟨rest, .inl ha⟩, rfl⟩)))
  · exact .inr (.inr (.inr (.inr ⟨⟨rest, .inr ha⟩, rfl⟩)))

/-! ## The invariant (R31) -/

/-- An idle block meets the invariant where DONE, ERR and ERRCODE fit together and its arrays are in canonical form. -/
theorem State.Inv.of_idle {t : State} (hb : t.status.busy = false)
    (hde : ¬(t.status.done = true ∧ t.status.err = true)) (hno : t.status.err = false → t.status.errcode = 0#3)
    (hsome : t.status.err = true → t.status.errcode = 1#3 ∨ t.status.errcode = 2#3 ∨ t.status.errcode = 3#3)
    (ha : t.ArraysWf) : t.Inv where
  busyAlone := by simp [hb]
  doneOrErr := hde
  noCode := hno
  someCode := hsome
  scanInside := by simp [hb]
  checked := by simp [hb]
  arrays := ha

/-- A step that keeps the operands and STATUS keeps the invariant, where the scan position stays inside the image and
DSTMEM in canonical form. -/
theorem State.Inv.of_sameStatus {s t : State} (h : s.Inv) (ho : SameOperands s t) (hs : t.status = s.status)
    (hscan : s.status.busy = true → t.ox.toNat < s.width ∧ t.oy.toNat < s.height)
    (hd : t.dstmem.wf Config.pixmemBytes) : t.Inv where
  busyAlone := by rw [hs]; exact h.busyAlone
  doneOrErr := by rw [hs]; exact h.doneOrErr
  noCode := by rw [hs]; exact h.noCode
  someCode := by rw [hs]; exact h.someCode
  scanInside := by rw [hs, ho.width, ho.height]; exact hscan
  checked := by rw [hs, State.checkCommand_congr ho]; exact h.checked
  arrays := by
    obtain ⟨hk, hsrc, -⟩ := h.arrays
    exact ⟨ho.kram ▸ hk, ho.srcmem ▸ hsrc, hd⟩

/-- The invariant speaks of the operands, STATUS, the scan position and DSTMEM alone. -/
theorem State.Inv.congr {s t : State} (h : s.Inv) (ho : SameOperands s t) (hs : t.status = s.status)
    (hscan : t.ox = s.ox ∧ t.oy = s.oy) (hd : t.dstmem = s.dstmem) : t.Inv := by
  obtain ⟨hx, hy⟩ := hscan
  obtain ⟨-, -, hdst⟩ := h.arrays
  exact h.of_sameStatus ho hs (by rw [hx, hy]; exact h.scanInside) (hd ▸ hdst)

theorem State.Inv.withAgenda {s : State} (h : s.Inv) (rest : List Event) : (s.withAgenda rest).Inv :=
  h.congr ⟨rfl, rfl, rfl, rfl, rfl, rfl⟩ rfl ⟨rfl, rfl⟩ rfl

theorem State.Inv.respond {s : State} (h : s.Inv) (r : Resp) (d : Word) : (s.respond r d).Inv :=
  h.congr ⟨rfl, rfl, rfl, rfl, rfl, rfl⟩ rfl ⟨rfl, rfl⟩ rfl

theorem CommandError.code_cases (e : CommandError) : e.code = 1#3 ∨ e.code = 2#3 ∨ e.code = 3#3 := by
  cases e <;> decide

/-- The state of a command that failed meets the invariant (R165). -/
theorem State.failedWith_inv {s : State} (h : s.ArraysWf) (c : CmdLatch) (e : CommandError) : (s.failedWith c e).Inv :=
  .of_idle rfl (by simp [State.failedWith]) (by simp [State.failedWith]) (fun _ => e.code_cases) h

/-- The state of a run just started meets the invariant, where the checks passed (R91, R96). -/
theorem State.running_inv {s : State} (h : s.ArraysWf) {c : CmdLatch}
    (hc : (s.latch c).checkCommand Config.krom = none) : (s.running c).Inv where
  busyAlone _ := ⟨rfl, rfl⟩
  doneOrErr := by simp [State.running]
  noCode _ := rfl
  someCode := by simp [State.running]
  scanInside _ := ⟨(s.running c).width_pos, (s.running c).height_pos⟩
  checked _ := hc
  arrays := h

/-- Every command keeps the invariant (R91). -/
theorem exec_keeps_inv {i : Instr} {s t : State} (hi : s.Inv) (h : exec i s = .next t) : t.Inv := by
  rcases exec_cases i with ⟨-, hexec⟩ | ⟨-, c, hexec⟩ <;> rw [hexec, Host.Outcome.next.injEq] at h <;> subst h
  · exact hi
  · cases hb : s.status.busy with
    | true => rw [submitTo_busy hb]; exact hi
    | false =>
      rcases submitTo_idle_cases Config.krom c hb with ⟨e, he⟩ | ⟨hr, hc⟩
      · rw [he]; exact State.failedWith_inv hi.arrays c e
      · rw [hr]; exact State.running_inv hi.arrays hc

/-- A write to STATUS keeps the invariant: it clears DONE, or ERR together with its code (R14). -/
theorem State.Inv.acknowledge {s : State} (h : s.Inv) (v : Word) : (s.acknowledge v).Inv := by
  obtain ⟨hb, hd, he, hc⟩ := s.status.writeOneToClear_fields v
  refine ⟨?_, ?_, ?_, ?_, ?_, ?_, h.arrays⟩ <;> simp only [State.acknowledge_status, hb, hd, he, hc]
  · intro hbusy
    obtain ⟨hdone, herr⟩ := h.busyAlone hbusy
    simp [hdone, herr]
  · have := h.doneOrErr
    simp
    tauto
  · cases v.getLsbD 2
    · simpa using h.noCode
    · simp
  · cases v.getLsbD 2
    · simpa using h.someCode
    · simp
  · exact h.scanInside
  · exact h.checked

/-- A host write to KRAM or SRCMEM keeps the arrays in canonical form (R46). -/
theorem State.writeArray_arraysWf {s : State} (h : s.ArraysWf) {addr : Addr} {size : BitVec 2} {name : ArrayName}
    {off n : Nat} (hg : target addr size = some (.bytes name off n)) (v : Word) :
    (s.writeArray name off v n).ArraysWf := by
  obtain ⟨-, hbound⟩ := target_bytes_bound hg
  obtain ⟨hk, hsrc, hdst⟩ := h
  cases name with
  | kram => exact ⟨Memory.wf_setBytes v hk hbound, hsrc, hdst⟩
  | srcmem => exact ⟨hk, Memory.wf_setBytes v hsrc hbound, hdst⟩
  | dstmem => exact ⟨hk, hsrc, hdst⟩

theorem State.writeArray_status (s : State) (name : ArrayName) (off : Nat) (v : Word) (n : Nat) :
    (s.writeArray name off v n).status = s.status := by
  cases name <;> rfl

/-- Every host write keeps the invariant. -/
theorem hostWrite_keeps_inv {addr : Addr} {size : BitVec 2} {v : Word} {s t : State} (hi : s.Inv)
    (h : hostWrite addr size v s = .next t) : t.Inv := by
  have hr : (s.respond .okay 0#32).Inv := hi.respond _ _
  rcases hostWrite_cases h with ⟨-, rfl⟩ | ⟨-, -, rfl⟩ | ⟨-, rfl⟩ | ⟨-, rfl⟩ | ⟨-, hexec⟩ | ⟨hb, rfl | rfl | rfl⟩ |
    ⟨hb, name, off, n, -, hg, rfl⟩
  · exact hi.respond _ _
  · exact hr
  · exact hr.acknowledge v
  · exact hr.congr ⟨rfl, rfl, rfl, rfl, rfl, rfl⟩ rfl ⟨rfl, rfl⟩ rfl
  · exact exec_keeps_inv hr hexec
  iterate 3 exact .of_idle hb hi.doneOrErr hi.noCode hi.someCode hi.arrays
  · have hs := (s.respond .okay 0#32).writeArray_status name off v n
    refine .of_idle ?_ ?_ ?_ ?_ (State.writeArray_arraysWf hr.arrays hg v) <;> rw [hs]
    · exact hb
    · exact hi.doneOrErr
    · exact hi.noCode
    · exact hi.someCode

/-- A pixel of a running engine keeps the invariant: the position stays inside the image, or the run is
complete (R100). -/
theorem enginePixel_keeps_inv {s : State} (kd : KernelEntry) (hi : s.Inv) (hb : s.status.busy = true) :
    (enginePixel kd s).Inv := by
  obtain ⟨hx, hy⟩ := hi.scanInside hb
  obtain ⟨hk, hsrc, hdst⟩ := hi.arrays
  have hops := enginePixel_sameOperands s kd
  have hd : (enginePixel kd s).dstmem.wf Config.pixmemBytes := by
    rw [enginePixel_dstmem]
    exact Memory.wf_setByte _ hdst (lt_of_lt_of_le (scanIndex_lt hx hy) s.pixels_le)
  have hpos := enginePixel_position s kd
  split_ifs at hpos with hcol hrow <;> obtain ⟨px, py, hs⟩ := hpos
  · exact hi.of_sameStatus hops hs (fun _ => ⟨by omega, by rw [py]; exact hy⟩) hd
  · exact hi.of_sameStatus hops hs (fun _ => ⟨by rw [px]; exact s.width_pos, by omega⟩) hd
  · obtain ⟨-, herr⟩ := hi.busyAlone hb
    refine .of_idle ?_ ?_ ?_ ?_ ⟨hops.kram ▸ hk, hops.srcmem ▸ hsrc, hd⟩ <;>
      simp [hs, Status.completed, herr, hi.noCode herr]

theorem engineStep_keeps_inv {s t : State} (hi : s.Inv) (h : engineStep s = .next t) : t.Inv := by
  rcases engineStep_cases h with ⟨-, rfl⟩ | ⟨hb, kd, -, rfl⟩
  · exact hi
  · exact enginePixel_keeps_inv kd hi hb

theorem State.dstAfterReset_wf {s : State} (h : s.ArraysWf) : s.dstAfterReset.wf Config.pixmemBytes := by
  obtain ⟨-, -, hdst⟩ := h
  unfold State.dstAfterReset
  split
  · exact Memory.wf_redraw _ hdst
  · exact hdst

/-- With STATUS as reset leaves it, the invariant asks for the canonical form of the arrays alone (R30). -/
theorem State.Inv.of_resetStatus {t : State} (hs : t.status = State.reset.status) (ha : t.ArraysWf) : t.Inv := by
  refine .of_idle ?_ ?_ ?_ ?_ ha <;> simp [hs, State.reset]

theorem State.applyReset_inv {s : State} (h : s.ArraysWf) : s.applyReset.Inv := by
  have ⟨hk, hsrc, _⟩ := h
  exact .of_resetStatus rfl ⟨hk, hsrc, State.dstAfterReset_wf h⟩

theorem State.applyPowerOn_inv {s : State} (h : s.ArraysWf) : s.applyPowerOn.Inv := by
  obtain ⟨hk, hsrc, hdst⟩ := h
  exact .of_resetStatus rfl ⟨Memory.wf_redraw _ hk, Memory.wf_redraw _ hsrc, Memory.wf_redraw _ hdst⟩

/-- Settles O53, by the kinds of step: each keeps the invariant. -/
theorem everyStepKeepsTheInvariant : Obligations.EveryStepKeepsTheInvariant := by
  intro s t hi h
  rcases step_cases h with ⟨-, hstep⟩ | ⟨rest, -, hstep⟩ | ⟨-, hblock⟩ | ⟨q, rest, -, -, hwrite⟩ | ⟨rest, -, rfl⟩ |
    ⟨rest, -, rfl⟩
  · exact engineStep_keeps_inv hi hstep
  · exact engineStep_keeps_inv (hi.withAgenda rest) hstep
  · exact hi.congr hblock.operands hblock.status hblock.scan hblock.dstmem
  · exact hostWrite_keeps_inv (hi.withAgenda rest) hwrite
  · exact State.applyReset_inv (hi.withAgenda rest).arrays
  · exact State.applyPowerOn_inv (hi.withAgenda rest).arrays

/-- Settles O52: at reset no flag is set and no array lists a byte. -/
theorem invariantHoldsAtReset : Obligations.InvariantHoldsAtReset :=
  State.Inv.of_resetStatus rfl ⟨Memory.wf_empty _, Memory.wf_empty _, Memory.wf_empty _⟩

/-! ## What the flags, the operands and the arrays depend on -/

/-- Settles O48, by what a step can do to STATUS. -/
theorem flagsChangeOnlyAsListed : Obligations.FlagsChangeOnlyAsListed := by
  intro s t h
  rcases step_status_cases h with hs | ⟨hdue, hb, hs⟩ | ⟨v, rest, ha, hs⟩ | ⟨hacc, hdone⟩ | ⟨hreset, hs⟩
  · simp +contextual [hs]
  · simp +contextual [hs, hb, hdue, Status.completed]
  · obtain ⟨hb, hd, he, hc⟩ := s.status.writeOneToClear_fields v
    have hack : ∀ bit, v.getLsbD bit = true → s.acknowledging bit := fun bit hbit => ⟨v, rest, ha, hbit⟩
    rw [hs, hb, hd, he, hc]
    refine ⟨by simp +contextual, by simp +contextual, by simp +contextual, fun h1 h2 => ?_, by simp +contextual,
      fun h1 h2 => ?_, fun hne => ?_⟩
    · exact .inr (.inl (hack 1 (by simpa [h1] using h2)))
    · exact .inr (.inl (hack 2 (by simpa [h1] using h2)))
    · by_cases hbit : v.getLsbD 2 = true
      · exact .inr (.inl (hack 2 hbit))
      · exact absurd (if_neg hbit) hne
  · have hidle := hacc.1
    simp [hacc, hidle, hdone]
  · simp [hs, hreset, State.reset]

/-- Settles O49, by the two states a submitted command can leave and the one a completed run leaves. -/
theorem irqFollowsTheFlags : Obligations.IrqFollowsTheFlags := by
  refine fun s => ⟨fun hie => by simp [State.irq, hie], fun hie hb i t hi h => ?_, fun hie hb t h hidle => ?_, ?_⟩
  · rcases exec_cases i with ⟨rfl, -⟩ | ⟨-, c, hexec⟩
    · exact absurd rfl hi
    rw [hexec, Host.Outcome.next.injEq] at h
    subst h
    rcases submitTo_idle_cases Config.krom c hb with ⟨e, he⟩ | ⟨hr, -⟩
    · simp [he, State.irq, State.failedWith, hie]
    · simp [hr, State.irq, State.running]
  · have hs : t.status = s.status.completed := by
      rcases engineStep_status_cases h with hs | ⟨-, hs⟩
      · simp [hs, hb] at hidle
      · exact hs
    simp [State.irq, engineStep_ctrl h, hie, hs, Status.completed]
  · simp [State.irq, Status.writeOneToClear]

/-- Settles O55: the engine never changes an operand, and the BUSY lock drops the host's writes. -/
theorem operandsAreFrozenDuringARun : Obligations.OperandsAreFrozenDuringARun := by
  intro s t hb h hnoReset hnoPowerOn
  rcases step_cases h with ⟨-, hstep⟩ | ⟨rest, -, hstep⟩ | ⟨-, hblock⟩ | ⟨q, rest, -, -, hwrite⟩ | ⟨rest, ha, -⟩ |
    ⟨rest, ha, -⟩
  · exact engineStep_sameOperands hstep
  · exact (SameOperands.withAgenda s rest).trans (engineStep_sameOperands hstep)
  · exact hblock.operands
  · exact (SameOperands.withAgenda s rest).trans (hostWrite_sameOperands_of_busy (by simpa using hb) hwrite)
  · exact absurd ha (hnoReset rest)
  · exact absurd ha (hnoPowerOn rest)

/-- A byte of DSTMEM that an engine step changes is a pixel of the running image (R30, R100). -/
theorem engineStep_dstmem_change {s t : State} {a : Nat} (hi : s.Inv) (h : engineStep s = .next t)
    (hne : t.byteAt .dstmem a ≠ s.byteAt .dstmem a) : s.status.busy = true ∧ a < s.width * s.height := by
  rcases engineStep_cases h with ⟨-, rfl⟩ | ⟨hb, kd, -, rfl⟩
  · exact absurd rfl hne
  · obtain ⟨hx, hy⟩ := hi.scanInside hb
    refine ⟨hb, ?_⟩
    by_cases hscan : a = s.scanIndex
    · exact hscan ▸ scanIndex_lt hx hy
    · rw [State.byteAt_dstmem, enginePixel_dstmem, Memory.byteAt_setByte_ne _ _ _ hscan] at hne
      exact absurd rfl hne

/-- A byte of DSTMEM that a reset changes is a pixel of the run it cuts (R30, U4). -/
theorem applyReset_dstmem_change {s : State} {a : Nat} (hne : s.applyReset.byteAt .dstmem a ≠ s.byteAt .dstmem a) :
    s.status.busy = true ∧ a < s.width * s.height := by
  rw [State.byteAt_dstmem, State.byteAt_dstmem, State.applyReset_dstmem, State.dstAfterReset] at hne
  split at hne
  · refine ⟨by assumption, ?_⟩
    by_contra hge
    exact hne (Memory.byteAt_redraw_ge _ _ (by omega))
  · exact absurd rfl hne

/-- Settles O56, by the kinds of step. -/
theorem dstmemHasOneWriter : Obligations.DstmemHasOneWriter := by
  intro s t a hi h hne
  rcases step_cases h with ⟨ha, hstep⟩ | ⟨rest, ha, hstep⟩ | ⟨-, hblock⟩ | ⟨q, rest, -, -, hwrite⟩ | ⟨rest, ha, rfl⟩ |
    ⟨rest, ha, -⟩
  · obtain ⟨hb, hlt⟩ := engineStep_dstmem_change hi hstep hne
    exact .inr ⟨hb, hlt, .inl ha⟩
  · obtain ⟨hb, hlt⟩ := engineStep_dstmem_change (hi.withAgenda rest) hstep hne
    exact .inr ⟨hb, hlt, .inr ⟨rest, .inl ha⟩⟩
  · simp [State.byteAt_dstmem, hblock.dstmem] at hne
  · simp [State.byteAt_dstmem, hostWrite_dstmem hwrite] at hne
  · obtain ⟨hb, hlt⟩ := applyReset_dstmem_change (s := s.withAgenda rest) hne
    exact .inr ⟨hb, hlt, .inr ⟨rest, .inr ha⟩⟩
  · exact .inl ⟨rest, ha⟩

/-- Settles O57: the engine and a reset keep both arrays, and so does a host write to a busy block. -/
theorem inputArraysChangeOnlyByHostWrites : Obligations.InputArraysChangeOnlyByHostWrites := by
  intro s t h hne
  have hsame : ¬SameOperands s t := fun ho => hne.elim (· ho.kram) (· ho.srcmem)
  rcases step_cases h with ⟨-, hstep⟩ | ⟨rest, -, hstep⟩ | ⟨-, hblock⟩ | ⟨q, rest, ha, hw, hwrite⟩ | ⟨rest, -, rfl⟩ |
    ⟨rest, ha, -⟩
  · exact absurd (engineStep_sameOperands hstep) hsame
  · exact absurd ((SameOperands.withAgenda s rest).trans (engineStep_sameOperands hstep)) hsame
  · exact absurd hblock.operands hsame
  · cases hb : s.status.busy with
    | false => exact .inr ⟨rfl, q, rest, ha, hw⟩
    | true =>
      exact absurd ((SameOperands.withAgenda s rest).trans (hostWrite_sameOperands_of_busy (by simpa using hb) hwrite))
        hsame
  · simp at hne
  · exact .inl ⟨rest, ha⟩

/-! ## What the registers read as -/

/-- The step of the host's write of a word to a register (R45). -/
theorem step_writeRegister {s : State} {v : Word} {a : Nat} {rest : List Event} {r : Reg}
    (ha : s.agenda = writeEvent 2#2 a v.toNat :: rest) (hg : target (BitVec.ofNat 18 a) 2#2 = some (.reg r)) :
    step s = regWrite r v ((s.withAgenda rest).respond .okay 0#32) := by
  rw [step_writeEvent ha hg, BitVec.ofNat_toNat, BitVec.setWidth_eq]
  rfl

theorem regWrite_imgdim_idle {s : State} (h : s.status.busy = false) (v : Word) :
    regWrite .imgdim v s = .next { s with imgdim := ImgDim.ofWord v } := by
  simp [regWrite, h]

theorem regWrite_kdim_idle {s : State} (h : s.status.busy = false) (v : Word) :
    regWrite .kdim v s = .next { s with kdim := KDim.ofWord v } := by
  simp [regWrite, h]

theorem regWrite_anchor_idle {s : State} (h : s.status.busy = false) (v : Word) :
    regWrite .anchor v s = .next { s with anchor := Anchor.ofWord v } := by
  simp [regWrite, h]

/-- A register write and the read that follows it return the word the register holds after the write. -/
theorem nextWith_writeReadBack {s u : State} {v d : Word} {a : Nat} {rest : List Event} (r : Reg)
    (ha : s.agenda = writeEvent 2#2 a v.toNat :: readEvent 2#2 a :: rest)
    (hg : target (BitVec.ofNat 18 a) 2#2 = some (.reg r))
    (hu : regWrite r v ((s.withAgenda (readEvent 2#2 a :: rest)).respond .okay 0#32) = .next u)
    (hrest : u.agenda = readEvent 2#2 a :: rest) (hd : u.regWord r = d) :
    nextWith (runSteps 2 s) fun t => t.resp = some ⟨.okay, d⟩ :=
  hd ▸ step_then_readRegister ((step_writeRegister ha hg).trans hu) hrest hg

/-- Settles O45, by the step of each register write and the read that follows it. -/
theorem registersReadBackTheirFields : Obligations.RegistersReadBackTheirFields := by
  intro s v rest
  refine ⟨fun hb => ⟨fun ha => ?_, fun ha => ?_, fun ha => ?_⟩, fun ha => ?_, fun ha => ?_⟩
  · exact nextWith_writeReadBack .imgdim ha (by decide) (regWrite_imgdim_idle (by simpa using hb) v) rfl
      (ImgDim.word_ofWord v)
  · exact nextWith_writeReadBack .kdim ha (by decide) (regWrite_kdim_idle (by simpa using hb) v) rfl
      (KDim.word_ofWord v)
  · exact nextWith_writeReadBack .anchor ha (by decide) (regWrite_anchor_idle (by simpa using hb) v) rfl
      (Anchor.word_ofWord v)
  · exact nextWith_writeReadBack .ctrl ha (by decide) rfl rfl (Ctrl.word_ofWord v)
  · exact nextWith_writeReadBack .id ha (by decide) rfl rfl rfl

/-- Settles O16, by what the command of the written word leaves in the latch. -/
theorem commandLatchReadsBack : Obligations.CommandLatchReadsBack := by
  intro s v rest ha
  obtain ⟨u, hexec, hagenda, hstored, hkept⟩ :=
    exec_decodeWord_latch v ((s.withAgenda (readEvent 2#2 0x00004 :: rest)).respond .okay 0#32)
  have hstep : step s = .next u := by
    rw [step_cons ha]
    exact (hostStep_cmdWrite v _).trans hexec
  obtain ⟨t, hrun, hresp⟩ := step_then_readRegister (r := .cmd) hstep hagenda (by decide)
  refine ⟨t, hrun, fun hb hgo => ?_, fun hno => ?_⟩
  · rw [hresp, State.regWord, hstored hb hgo]
  · rw [hresp, State.regWord, hkept hno]
    rfl

/-- The flags in the bits of the STATUS word (R14). -/
theorem Status.word_fields (f : Status) :
    f.word.getLsbD 0 = f.busy ∧ f.word.getLsbD 1 = f.done ∧ f.word.getLsbD 2 = f.err ∧
      f.word.extractLsb' 4 3 = f.errcode ∧ f.word &&& 0xFFFFFF88#32 = 0#32 := by
  obtain ⟨busy, done, err, errcode⟩ := f
  revert busy done err errcode
  decide

/-- Settles O46, by the step that reads a register and the bits of the STATUS word. -/
theorem statusReadsItsFlags : Obligations.StatusReadsItsFlags := by
  intro s rest ha
  exact ⟨_, step_readRegister (r := .status) ha (by decide), s.status.word, rfl, s.status.word_fields⟩

/-- Settles O47, by the step that writes STATUS and its effect field by field. -/
theorem statusWriteOneToClear : Obligations.StatusWriteOneToClear := by
  intro s v rest ha
  obtain ⟨hb, hd, he, hc⟩ := s.status.writeOneToClear_fields v
  exact ⟨_, step_writeRegister (r := .status) ha (by decide), hb, hd, he, hc, ⟨rfl, rfl, rfl, rfl, rfl, rfl⟩, rfl, rfl,
    rfl, rfl, rfl⟩

/-! ## What a pixel depends on (R106) -/

/-- A sample depends on IMGDIM, BORDER, FILL and the first `W*H` bytes of SRCMEM alone. -/
theorem sample_congr {s t : State} (hdim : t.imgdim = s.imgdim) (hborder : t.cmd.border = s.cmd.border)
    (hfill : t.cmd.fill = s.cmd.fill) (hsrc : sameBytes .srcmem (s.width * s.height) s t) (px py : Int) :
    t.sample px py = s.sample px py := by
  rcases sample_cases s px py with ⟨idx, hlt, hbyte⟩ | ⟨-, -, hconst⟩
  · rw [hbyte t hdim hborder, hbyte s rfl rfl, hsrc idx hlt]
  · rw [hconst t hdim hborder, hconst s rfl rfl, hfill]

/-- A pixel depends on the samples and on the kernel's shape, its anchor and the weights of its cells alone (R99). -/
theorem out_congr_of_sample {s t : State} {kd kd' : KernelEntry} (hsample : ∀ px py, t.sample px py = s.sample px py)
    (hkw : kd'.kw = kd.kw) (hkh : kd'.kh = kd.kh) (hax : kd'.ax = kd.ax) (hay : kd'.ay = kd.ay)
    (hraw : ∀ i j, i < kd.kw.toNat → j < kd.kh.toNat → kd'.raw i j = kd.raw i j) (x y : Int) :
    t.out kd' x y = s.out kd x y := by
  have hacc : t.acc kd' x y = s.acc kd x y := by
    simp only [State.acc, hkw, hkh, hax, hay, hsample]
    exact sumBelow_congr fun j hj => sumBelow_congr fun i hi => by rw [hraw i j hi hj]
  simp only [State.out, hacc]

/-- The weights of a CONV kernel's cells are among the first `kW*kH` of KRAM (R98). -/
theorem convKernel_raw_congr {s t : State} (hkdim : t.kdim = s.kdim)
    (hkram : sameBytes .kram (2 * (s.kdim.kw.toNat * s.kdim.kh.toNat)) s t) {i j : Nat} (hi : i < s.kdim.kw.toNat)
    (hj : j < s.kdim.kh.toNat) : t.convKernel.raw i j = s.convKernel.raw i j := by
  have hcell : j * s.kdim.kw.toNat + i < s.kdim.kw.toNat * s.kdim.kh.toNat := by
    calc j * s.kdim.kw.toNat + i < (j + 1) * s.kdim.kw.toNat := by rw [Nat.add_mul]; omega
      _ ≤ s.kdim.kh.toNat * s.kdim.kw.toNat := Nat.mul_le_mul_right _ hj
      _ = s.kdim.kw.toNat * s.kdim.kh.toNat := Nat.mul_comm _ _
  simp only [State.convKernel, State.kramWeight, hkdim]
  rw [hkram _ (by omega), hkram _ (by omega)]

/-- Settles O22: the samples agree, and so do the weights of a CONV kernel. -/
theorem outputDependsOnlyOnOperands : Obligations.OutputDependsOnlyOnOperands := by
  intro s t x y hdim hborder hfill hsrc
  have hsample := sample_congr hdim hborder hfill hsrc
  refine ⟨fun kd => out_congr_of_sample hsample rfl rfl rfl rfl (fun _ _ _ _ => rfl) x y, fun hkdim hanchor hkram => ?_⟩
  exact out_congr_of_sample hsample (by simp [State.convKernel, hkdim]) (by simp [State.convKernel, hkdim])
    (by simp [State.convKernel, hanchor]) (by simp [State.convKernel, hanchor])
    (fun i j hi hj => convKernel_raw_congr hkdim hkram hi hj) x y

end Sys2Proof.Machine
end

section
/-! SUPPORT. The host port (20_memory.md): the step of a host transaction, what it answers and what it leaves, and the
statements about accesses that follow from it. -/

namespace Sys2Proof.Machine

/-! ## The step of a host transaction -/

/-- The step of a host write (R45). -/
theorem step_hostWrite {s : State} {q : Transaction} {rest : List Event} (ha : s.agenda = .host q :: rest)
    (hw : q.write = true) : step s = hostWrite q.addr q.size q.wdata (s.withAgenda rest) := by
  rw [step_cons ha]
  simp only [takeEvent, hostStep, hw, if_true]

/-- The step of a host read (R44). -/
theorem step_hostRead {s : State} {q : Transaction} {rest : List Event} (ha : s.agenda = .host q :: rest)
    (hw : q.write = false) : step s = .next (hostRead q.addr q.size (s.withAgenda rest)) := by
  rw [step_cons ha]
  simp only [takeEvent, hostStep, hw, Bool.false_eq_true, if_false]

/-- An illegal read does nothing (R47). -/
theorem hostRead_illegal {addr : Addr} {size : BitVec 2} (hg : target addr size = none) (s : State) :
    hostRead addr size s = s.respond .error 0#32 := by
  simp only [hostRead, hg]

/-- A legal read returns the data of what it reaches (R44). -/
theorem hostRead_legal {addr : Addr} {size : BitVec 2} {g : Target} (hg : target addr size = some g) (s : State) :
    hostRead addr size s = (s.countDraw g).respond .okay (s.readData g) := by
  simp only [hostRead, hg]

/-- An illegal write does nothing (R47). -/
theorem hostWrite_illegal {addr : Addr} {size : BitVec 2} (hg : target addr size = none) (v : Word) (s : State) :
    hostWrite addr size v s = .next (s.respond .error 0#32) := by
  simp only [hostWrite, hg]

/-- A legal write has the effect of what it reaches, in the state with the response OKAY (R45). -/
theorem hostWrite_legal {addr : Addr} {size : BitVec 2} {g : Target} (hg : target addr size = some g) (v : Word)
    (s : State) : hostWrite addr size v s = writeTarget g v (s.respond .okay 0#32) := by
  simp only [hostWrite, hg]

/-- The step of a legal read (R44). -/
theorem step_readEvent {s : State} {z : BitVec 2} {a : Nat} {rest : List Event} {g : Target}
    (ha : s.agenda = readEvent z a :: rest) (hg : target (BitVec.ofNat 18 a) z = some g) :
    step s = .next (((s.withAgenda rest).countDraw g).respond .okay ((s.withAgenda rest).readData g)) :=
  (step_hostRead ha rfl).trans (congrArg _ (hostRead_legal hg _))

/-- The step of a write of a word to a legal index of an array (R41, R45). -/
theorem step_writeIndex {s : State} {name : ArrayName} {z : BitVec 2} {a : Nat} {v : Word} {rest : List Event}
    (hl : legalIndex name z a) (ha : s.agenda = writeEvent z (arrayBase name + a) v.toNat :: rest) :
    step s = writeTarget (.bytes name a (2 ^ z.toNat)) v ((s.withAgenda rest).respond .okay 0#32) := by
  rw [step_writeEvent ha (target_array hl), BitVec.ofNat_toNat, BitVec.setWidth_eq]

theorem SameBlock.of_withAgenda {s u : State} {l : List Event} (h : SameBlock (s.withAgenda l) u) : SameBlock s u :=
  ⟨(SameOperands.withAgenda s l).trans h.operands, h.status, h.ctrl, h.dstmem, h.scan⟩

/-! ## Responses -/

/-- Whatever a legal write does, it is answered OKAY with rdata 0 (R40, R45). -/
theorem hostWrite_legal_resp {addr : Addr} {size : BitVec 2} {g : Target} {v : Word} {s t : State}
    (hg : target addr size = some g) (h : hostWrite addr size v s = .next t) : t.resp = some ⟨.okay, 0#32⟩ := by
  rcases hostWrite_cases h with ⟨hnone, -⟩ | ⟨-, -, rfl⟩ | ⟨-, rfl⟩ | ⟨-, rfl⟩ | ⟨-, hexec⟩ | ⟨-, rfl | rfl | rfl⟩ |
    ⟨-, name, off, n, -, -, rfl⟩
  · rw [hg] at hnone
    cases hnone
  iterate 3 rfl
  · rcases exec_cases (decodeWord v) with ⟨-, hnop⟩ | ⟨-, c, hsubmit⟩
    · rw [hnop] at hexec
      cases hexec
      rfl
    · rw [hsubmit] at hexec
      cases hexec
      obtain ⟨-, -, -, -, -, -, -, -, hresp, -⟩ := submitTo_frame Config.krom c (s.respond .okay 0#32)
      exact hresp
  iterate 3 rfl
  · cases name <;> rfl

/-- Settles O38: the illegal accesses are those that reach nothing. -/
theorem illegalAccessGetsErrorAndDoesNothing : Obligations.IllegalAccessGetsErrorAndDoesNothing := by
  intro s q rest ha
  refine ⟨fun hillegal => ?_, fun hlegal u hu => ?_⟩
  · have hg := (target_eq_none q.addr q.size).mpr hillegal
    cases hw : q.write with
    | true => rw [step_hostWrite ha hw, hostWrite_illegal hg]
    | false => rw [step_hostRead ha hw, hostRead_illegal hg]
  · obtain ⟨g, hg⟩ := Option.ne_none_iff_exists'.mp (mt (target_eq_none q.addr q.size).mp hlegal)
    cases hw : q.write with
    | true =>
      rw [step_hostWrite ha hw] at hu
      exact ⟨0#32, hostWrite_legal_resp hg hu, fun _ => rfl⟩
    | false =>
      rw [step_hostRead ha hw, hostRead_legal hg] at hu
      cases hu
      exact ⟨_, rfl, nofun⟩

/-! ## Reads -/

/-- Settles O39, by what a read leaves of the block. -/
theorem readsChangeNothing : Obligations.ReadsChangeNothing := by
  intro s q rest hw ha
  obtain ⟨hblock, hagenda⟩ := hostRead_frame q.addr q.size (s.withAgenda rest)
  exact ⟨_, step_hostRead ha hw, hblock.of_withAgenda, hagenda⟩

/-- A read of an array returns its bytes little-endian, except a read of DSTMEM while BUSY = 1 (R44, R52). -/
theorem State.readData_bytes {s : State} {name : ArrayName} (h : name = .dstmem → s.status.busy = false) (a n : Nat) :
    s.readData (.bytes name a n) = (s.array name).le name a n := by
  cases name with
  | kram => rfl
  | srcmem => rfl
  | dstmem => simp only [State.readData, h rfl, Bool.false_eq_true, if_false, State.array]

/-- The step of a read at a legal index of an array, except of DSTMEM while BUSY = 1 (R41, R44). -/
theorem step_readIndex {s : State} {name : ArrayName} {z : BitVec 2} {a : Nat} {rest : List Event}
    (hl : legalIndex name z a) (hidle : name = .dstmem → s.status.busy = false)
    (ha : s.agenda = readEvent z (arrayBase name + a) :: rest) :
    nextWith (step s) fun u => SameBlock s u ∧ u.agenda = rest ∧
      u.resp = some ⟨.okay, (s.array name).le name a (2 ^ z.toNat)⟩ := by
  refine ⟨_, step_readEvent ha (target_array hl), ?_, ?_, ?_⟩
  · exact ((State.countDraw_sameBlock _ _).respond _ _).of_withAgenda
  · simp
  · rw [State.respond_resp, State.readData_bytes (s := s.withAgenda rest) hidle]
    cases name <;> rfl

/-- RDPIX of a pixel is a legal one-byte access of DSTMEM (R81). -/
theorem legalIndex_of_rdpix_wf {a : Nat} (h : (HostLine.rdpix a).wf = true) : legalIndex .dstmem 0#2 a := by
  have ha : a ≤ 65535 := by simpa [HostLine.wf] using h
  exact ⟨by decide, Nat.mod_one a, Nat.succ_le_succ ha⟩

/-- Settles O40, by the step of an array read and the little-endian word of one, two and four bytes. -/
theorem arrayReadsAreLittleEndian : Obligations.ArrayReadsAreLittleEndian := by
  refine ⟨fun s name size a rest hl hidle ha => ?_, fun s a rest hwf hb ha => ?_⟩
  · obtain ⟨u, hstep, hblock, hagenda, hresp⟩ := step_readIndex hl hidle ha
    obtain ⟨hle1, hle2, hle4⟩ := (s.array name).le_eq_append name a
    refine ⟨u, hstep, hblock, hagenda, ?_, ?_, ?_⟩ <;> rintro rfl <;> rw [hresp]
    · exact congrArg (some <| Response.mk .okay ·) hle1
    · exact congrArg (some <| Response.mk .okay ·) hle2
    · exact congrArg (some <| Response.mk .okay ·) hle4
  · obtain ⟨u, hstep, -, -, hresp⟩ := step_readIndex (legalIndex_of_rdpix_wf hwf) (fun _ => hb) ha
    obtain ⟨hle1, -, -⟩ := s.dstmem.le_eq_append .dstmem a
    exact ⟨u, hstep, hresp.trans (congrArg (some <| Response.mk .okay ·) hle1)⟩

/-- The low bytes of a word are its value modulo a power of 256 (R49). -/
theorem lowBytes_toNat (n : Nat) (v : Word) : (lowBytes n v).toNat = v.toNat % 2 ^ (8 * n) :=
  Nat.mod_eq_of_lt ((Nat.mod_le _ _).trans_lt v.isLt)

/-- Settles O44, by the data and the counter of a DSTMEM read while BUSY = 1. -/
theorem dstmemReadsWhileBusyAreFree : Obligations.DstmemReadsWhileBusyAreFree := by
  intro s size a rest hb hl ha
  refine ⟨_, step_readEvent ha (target_array hl), ⟨lowBytes (2 ^ size.toNat) (Config.freeRead s.draws), ?_, ?_, ?_⟩,
    ?_, ?_⟩
  · simp [State.readData, hb]
  · rw [lowBytes_toNat]
    exact Nat.mod_lt _ (Nat.two_pow_pos _)
  · exact lowBytes_toNat _ _
  · simp [State.countDraw, hb]
  · exact ((State.countDraw_sameBlock _ _).respond _ _).of_withAgenda

/-! ## Writes -/

/-- A write to DSTMEM does nothing, whether or not BUSY = 1 (R51). -/
theorem writeTarget_dstmem (off n : Nat) (v : Word) (s : State) :
    writeTarget (.bytes .dstmem off n) v s = .next s := by
  simp only [writeTarget, State.writeArray, ite_self]

/-- On an idle block a write stores its bytes (R45). -/
theorem writeTarget_bytes_idle {s : State} (h : s.status.busy = false) (name : ArrayName) (off n : Nat) (v : Word) :
    writeTarget (.bytes name off n) v s = .next (s.writeArray name off v n) := by
  simp only [writeTarget, h, Bool.false_eq_true, if_false]

/-- The BUSY lock: while BUSY = 1 a write to anything but STATUS and CTRL does nothing (R50). -/
theorem writeTarget_locked {g : Target} {s : State} (hb : s.status.busy = true) (hstatus : g ≠ .reg .status)
    (hctrl : g ≠ .reg .ctrl) (v : Word) : writeTarget g v s = .next s := by
  cases g with
  | bytes name off n => simp only [writeTarget, hb, if_true]
  | reg r =>
    cases r with
    | id => rfl
    | cmd => exact exec_busy _ hb
    | status => exact absurd rfl hstatus
    | ctrl => exact absurd rfl hctrl
    | imgdim | kdim | anchor => simp only [writeTarget, regWrite, hb, if_true]

/-- The step of a write to a locked register while BUSY = 1 (R50). -/
theorem step_lockedRegister {s : State} {v : Word} {a : Nat} {rest : List Event} {r : Reg}
    (hb : s.status.busy = true) (ha : s.agenda = writeEvent 2#2 a v.toNat :: rest)
    (hg : target (BitVec.ofNat 18 a) 2#2 = some (.reg r)) (hstatus : r ≠ .status) (hctrl : r ≠ .ctrl) :
    step s = .next ((s.withAgenda rest).respond .okay 0#32) := by
  rw [step_writeEvent ha hg]
  exact writeTarget_locked (by simpa using hb) (by simpa using hstatus) (by simpa using hctrl) _

/-- Settles O43, by what a legal access of DSTMEM reaches. -/
theorem dstmemIgnoresHostWrites : Obligations.DstmemIgnoresHostWrites := by
  intro s q rest hw ha hlo hhi hsize halign
  rw [step_hostWrite ha hw, hostWrite_legal (target_dstmem hlo hhi hsize halign), writeTarget_dstmem]

/-- Settles O42, by the BUSY lock for the locked registers and arrays, and the effects of CTRL and STATUS. -/
theorem busyLockDropsWrites : Obligations.BusyLockDropsWrites := by
  intro s v rest hb
  refine ⟨fun addr haddr ha => ?_, fun name size a _ hl ha => ?_, fun ha => ?_, fun ha => ?_⟩
  · rcases haddr with rfl | rfl | rfl | rfl
    · exact step_lockedRegister (r := .cmd) hb ha (by decide) (by decide) (by decide)
    · exact step_lockedRegister (r := .imgdim) hb ha (by decide) (by decide) (by decide)
    · exact step_lockedRegister (r := .kdim) hb ha (by decide) (by decide) (by decide)
    · exact step_lockedRegister (r := .anchor) hb ha (by decide) (by decide) (by decide)
  · rw [step_writeIndex hl ha, writeTarget_locked (by simpa using hb) (by simp) (by simp)]
  · exact ⟨_, step_writeRegister (r := .ctrl) ha (by decide), rfl, rfl⟩
  · exact ⟨_, step_writeRegister (r := .status) ha (by decide), rfl, rfl⟩

/-- A write to KRAM or SRCMEM stores its bytes there (R45). -/
theorem State.array_writeArray_same (s : State) {name : ArrayName} (h : name ≠ .dstmem) (off : Nat) (v : Word)
    (n : Nat) : (s.writeArray name off v n).array name = (s.array name).setBytes off v n := by
  cases name with
  | kram => rfl
  | srcmem => rfl
  | dstmem => exact absurd rfl h

/-- A write to an array leaves the others as they were (R45). -/
theorem State.array_writeArray_ne (s : State) {name name' : ArrayName} (h : name' ≠ name) (off : Nat) (v : Word)
    (n : Nat) : (s.writeArray name off v n).array name' = s.array name' := by
  revert h
  cases name <;> cases name' <;> simp [State.writeArray, State.array]

/-- The bytes of the three arrays after a write to KRAM or SRCMEM (R42, R45). -/
theorem State.byteAt_writeArray (s : State) {name : ArrayName} (hname : name ≠ .dstmem) (name' : ArrayName)
    (off : Nat) (v : Word) (n b : Nat) :
    (s.writeArray name off v n).byteAt name' b =
      if name' = name ∧ off ≤ b ∧ b < off + n then byteOf v (b - off) else s.byteAt name' b := by
  by_cases hsame : name' = name
  · subst hsame
    simp [State.byteAt, State.array_writeArray_same s hname, Memory.byteAt_setBytes]
  · simp [State.byteAt, State.array_writeArray_ne s hsame, hsame]

/-- Settles O41, by the step of an array write to an idle block. -/
theorem arrayWritesStoreTheirBytes : Obligations.ArrayWritesStoreTheirBytes := by
  intro s name size a v rest hl hname hb ha
  refine ⟨_, (step_writeIndex hl ha).trans (writeTarget_bytes_idle (by simpa using hb) ..), fun k hk => ?_,
    fun name' b hb' => ?_, ?_⟩
  · rw [State.byteAt_writeArray _ hname, if_pos ⟨rfl, by omega, by omega⟩, Nat.add_sub_cancel_left, byteOf]
  · rw [State.byteAt_writeArray _ hname, if_neg fun ⟨hsame, hlo, hhi⟩ => hb'.elim (· hsame) (by omega)]
    cases name' <;> rfl
  · cases name <;> exact ⟨rfl, rfl, rfl, rfl, rfl, rfl, rfl, rfl, rfl, rfl⟩

/-- Settles O59, by the step of each register write. -/
theorem registerWritesTouchOnlyTheirRegister : Obligations.RegisterWritesTouchOnlyTheirRegister := by
  intro s v rest
  refine ⟨fun hb => ⟨fun ha => ?_, fun ha => ?_, fun ha => ?_⟩, fun ha => ?_, fun ha => ?_⟩
  · exact (step_writeRegister (r := .imgdim) ha (by decide)).trans (regWrite_imgdim_idle (by simpa using hb) v)
  · exact (step_writeRegister (r := .kdim) ha (by decide)).trans (regWrite_kdim_idle (by simpa using hb) v)
  · exact (step_writeRegister (r := .anchor) ha (by decide)).trans (regWrite_anchor_idle (by simpa using hb) v)
  · exact step_writeRegister (r := .ctrl) ha (by decide)
  · exact step_writeRegister (r := .id) ha (by decide)

/-! ## A run goes on under host transactions -/

/-- Everything a host write can do while BUSY = 1: the response alone, the flags of STATUS, or CTRL (R50). -/
theorem hostWrite_busy_cases {addr : Addr} {size : BitVec 2} {v : Word} {s t : State} (hb : s.status.busy = true)
    (h : hostWrite addr size v s = .next t) :
    (∃ r, t = s.respond r 0#32) ∨ t = (s.respond .okay 0#32).acknowledge v ∨
      t = { s.respond .okay 0#32 with ctrl := Ctrl.ofWord v } := by
  cases hg : target addr size with
  | none =>
    rw [hostWrite_illegal hg] at h
    cases h
    exact .inl ⟨_, rfl⟩
  | some g =>
    rw [hostWrite_legal hg] at h
    by_cases hstatus : g = .reg .status
    · subst hstatus
      cases h
      exact .inr (.inl rfl)
    by_cases hctrl : g = .reg .ctrl
    · subst hctrl
      cases h
      exact .inr (.inr rfl)
    rw [writeTarget_locked (by simpa using hb) hstatus hctrl] at h
    cases h
    exact .inl ⟨_, rfl⟩

/-- Settles O21: a read leaves the block, and the BUSY lock leaves a write only STATUS, which keeps BUSY, and CTRL. -/
theorem hostCannotDisturbARun : Obligations.HostCannotDisturbARun := by
  intro s u q rest hb ha h
  cases hw : q.write with
  | false =>
    rw [step_hostRead ha hw] at h
    cases h
    obtain ⟨hblock, hagenda⟩ := hostRead_frame q.addr q.size (s.withAgenda rest)
    obtain ⟨hops, hstatus, -, hdst, hx, hy⟩ := hblock.of_withAgenda
    exact ⟨by rw [hstatus, hb], hx, hy, hdst, hops, hagenda⟩
  | true =>
    rw [step_hostWrite ha hw] at h
    rcases hostWrite_busy_cases (by simpa using hb) h with ⟨r, rfl⟩ | rfl | rfl
    · exact ⟨hb, rfl, rfl, rfl, ⟨rfl, rfl, rfl, rfl, rfl, rfl⟩, rfl⟩
    · obtain ⟨hkept, -, -, -⟩ := s.status.writeOneToClear_fields q.wdata
      exact ⟨hkept.trans hb, rfl, rfl, rfl, ⟨rfl, rfl, rfl, rfl, rfl, rfl⟩, rfl⟩
    · exact ⟨hb, rfl, rfl, rfl, ⟨rfl, rfl, rfl, rfl, rfl, rfl⟩, rfl⟩

end Sys2Proof.Machine
end

section
/-! SUPPORT. The command words (R70, R74): what the decoder reads from a word of format `C`, the row of the opcode map a
word is of, the pseudo-instructions that write CMD (R81), and the statements about encoding that follow from them. -/

namespace Sys2Proof.Machine

/-! ## Decode and encode -/

/-- The command a word of format `C` with GO = 1 is: SEL chooses between `CONV` and `FILT` (R70, R74). -/
theorem decodeWord_formatC (sel : Bool) (b : Border) (fill fid : Byte) :
    decodeWord (formatC sel b fill fid) = if sel then filtInstr b fill fid else convInstr b fill fid := by
  simp only [decodeWord, goField_formatC, selField_formatC, borderField_formatC, Border.ofCode_code,
    fillField_formatC, fidField_formatC]
  cases sel <;> cases b <;> rfl

theorem encodeWord_convInstr (b : Border) (fill fid : Byte) :
    encodeWord (convInstr b fill fid) = formatC false b fill fid := by
  cases b <;> rfl

theorem encodeWord_filtInstr (b : Border) (fill fid : Byte) :
    encodeWord (filtInstr b fill fid) = formatC true b fill fid := by
  cases b <;> rfl

/-- The decoder undoes the encoder, word by word. -/
theorem decodeWord_encodeWord (i : Instr) : decodeWord (encodeWord i) = i := by
  rcases instr_cases i with rfl | ⟨b, fill, fid, rfl⟩ | ⟨b, fill, fid, rfl⟩
  · exact decodeWord_nop rfl
  · rw [encodeWord_convInstr, decodeWord_formatC, if_neg Bool.false_ne_true]
  · rw [encodeWord_filtInstr, decodeWord_formatC, if_pos rfl]

/-- Settles O1: the four bytes decode to the word they are of, and the word to its command. -/
theorem decodeOfEncode : Obligations.DecodeOfEncode := by
  intro i rest _
  rw [encode, decode_bytesOfWord, decodeWord_encodeWord]

/-- Settles O3, by running the decoder. -/
theorem writtenOutWordsDecode : Obligations.WrittenOutWordsDecode := by
  unfold Obligations.WrittenOutWordsDecode
  decide

theorem Instr.wf_eq_true (i : Instr) : i.wf = true := by
  cases i <;> rfl

/-- Settles O6, by the step that writes a word to CMD. -/
theorem stepRunsTheDecodedCommand : Obligations.StepRunsTheDecodedCommand := by
  intro s v rest ha
  exact ⟨decode_bytesOfWord v [], Instr.wf_eq_true _, (step_cons ha).trans (hostStep_cmdWrite v _)⟩

/-! ## The opcode map -/

/-- The opcode of a word: GO, SEL and BORDER, its low four bits (R70). -/
def opcodeBits (v : Word) : Word := v &&& 0x0000000F#32

/-- Every opcode is one of 16. -/
theorem opcodeBits_eq_setWidth (v : Word) : opcodeBits v = (v.setWidth 4).setWidth 32 := by
  apply BitVec.eq_of_getLsbD_eq
  intro i hi
  interval_cases i <;> simp [opcodeBits]

/-- A row of the opcode map matches a word or not by the word's opcode alone (R74). -/
theorem matchesWord_opcodeBits {r : OpcodeRow} (hr : r ∈ opcodeTable) (v : Word) :
    r.matchesWord (opcodeBits v) = r.matchesWord v := by
  have hmask : ∀ r ∈ opcodeTable, 0x0000000F#32 &&& r.mask = r.mask := by decide
  rw [OpcodeRow.matchesWord, opcodeBits, BitVec.and_assoc, hmask r hr, OpcodeRow.matchesWord]

/-- The decoder takes the mnemonic from the opcode alone (R74, R76). -/
theorem mnemonic_decodeWord_opcodeBits (v : Word) :
    (decodeWord (opcodeBits v)).mnemonic = (decodeWord v).mnemonic := by
  have hgo : goField (opcodeBits v) = goField v := by simp [goField, opcodeBits]
  have hsel : selField (opcodeBits v) = selField v := by simp [selField, opcodeBits]
  have hborder : borderField (opcodeBits v) = borderField v := by
    apply BitVec.eq_of_getLsbD_eq
    intro i hi
    interval_cases i <;> simp [borderField, opcodeBits]
  simp only [decodeWord, hgo, hsel, hborder]
  cases goField v <;> cases selField v <;> cases Border.ofCode (borderField v) <;> rfl

/-- The opcode map read row by row, for each of the 16 opcodes (R74). -/
theorem exactlyOneRow_of_opcode (n : BitVec 4) :
    ∃ r ∈ opcodeTable, r.matchesWord (n.setWidth 32) = true ∧
      r.mnemonic = (decodeWord (n.setWidth 32)).mnemonic ∧
      ∀ r' ∈ opcodeTable, r'.matchesWord (n.setWidth 32) = true → r' = r := by
  revert n
  decide

/-- Settles O2: rows and decoder see the opcode alone, and each of the 16 opcodes is of one row. -/
theorem everyWordIsExactlyOneRow : Obligations.EveryWordIsExactlyOneRow := by
  intro v
  obtain ⟨r, hr, hmatch, hname, huniq⟩ := exactlyOneRow_of_opcode (v.setWidth 4)
  rw [← opcodeBits_eq_setWidth] at hmatch hname huniq
  refine ⟨r, hr, ?_, ?_, fun r' hr' h => huniq r' hr' ?_⟩
  · rw [← matchesWord_opcodeBits hr, hmatch]
  · rw [hname, mnemonic_decodeWord_opcodeBits]
  · rw [matchesWord_opcodeBits hr', h]

/-! ## The pseudo-instructions that write CMD -/

/-- The value of two bit vectors put together. -/
theorem toNat_append_eq_add {m n : Nat} (u : BitVec m) (v : BitVec n) :
    (u ++ v).toNat = 2 ^ n * u.toNat + v.toNat := by
  rw [BitVec.toNat_append, Nat.shiftLeft_eq, Nat.mul_comm, Nat.two_pow_add_eq_or_of_lt v.isLt]

/-- The number whose word is that of format `C` with given fields, as R81 writes it. -/
theorem ofNat_formatC (sel : Bool) (b : Border) (fill fid : Byte) :
    BitVec.ofNat 32 (1 + 2 * sel.toNat + 4 * b.code.toNat + 256 * fill.toNat + 65536 * fid.toNat) =
      formatC sel b fill fid := by
  apply BitVec.eq_of_toNat_eq
  have hsel := sel.toNat_lt
  have hb := b.code.isLt
  have hfill := fill.isLt
  have hfid := fid.isLt
  simp only [formatC, toNat_append_eq_add, BitVec.toNat_ofNat, BitVec.toNat_ofBool]
  omega

/-- What the decoder reads from the number of a word of format `C`. -/
theorem decodeWord_ofNat {n : Nat} (sel : Bool) (b : Border) (fill fid : Byte)
    (hn : n = 1 + 2 * sel.toNat + 4 * b.code.toNat + 256 * fill.toNat + 65536 * fid.toNat) :
    decodeWord (BitVec.ofNat 32 n) = if sel then filtInstr b fill fid else convInstr b fill fid := by
  rw [hn, ofNat_formatC, decodeWord_formatC]

/-- Settles O4: each line writes the number of a word of format `C`, or 0. -/
theorem pseudoCommandsExpandToTheirCommands : Obligations.PseudoCommandsExpandToTheirCommands := by
  refine ⟨fun b => ⟨_, rfl, ?_⟩, fun fill => ⟨_, rfl, ?_⟩, fun b fid => ⟨_, rfl, ?_⟩, fun fid fill => ⟨_, rfl, ?_⟩,
    ⟨_, rfl, decodeWord_nop (by decide)⟩⟩
  · exact decodeWord_ofNat false b 0#8 0#8 (by simp)
  · exact decodeWord_ofNat false .constant fill 0#8 (by simp [Border.code])
  · exact decodeWord_ofNat true b 0#8 fid (by simp)
  · exact decodeWord_ofNat true .constant fill fid (by simp [Border.code])

end Sys2Proof.Machine
end

section
/-! SUPPORT. The operand lines of a host program (R81) and the statement about them. -/

namespace Sys2Proof.Machine

/-- The value of a field of a word, from the number of the word. -/
theorem extractLsb'_ofNat_toNat {a : Nat} (h : a < 2 ^ 32) (k n : Nat) :
    ((BitVec.ofNat 32 a).extractLsb' k n).toNat = a / 2 ^ k % 2 ^ n := by
  rw [BitVec.extractLsb'_toNat, BitVec.toNat_ofNat, Nat.mod_eq_of_lt h, Nat.shiftRight_eq_div_pow]

/-- The two fields of a register word as SETIMG, SETK and SETA write it, each 8 or 4 bits wide: one from bit 0 on, the
other from bit 8 on (R16 to R18, R81). -/
theorem fields_ofNat_pair {n lo hi : Nat} (hn : n = 8 ∨ n = 4) (hlo : lo < 2 ^ n) (hhi : hi < 2 ^ n) :
    ((BitVec.ofNat 32 (lo + 256 * hi)).extractLsb' 0 n).toNat = lo ∧
      ((BitVec.ofNat 32 (lo + 256 * hi)).extractLsb' 8 n).toNat = hi := by
  have hlt : lo + 256 * hi < 2 ^ 32 := by rcases hn with rfl | rfl <;> omega
  rw [extractLsb'_ofNat_toNat hlt, extractLsb'_ofNat_toNat hlt]
  rcases hn with rfl | rfl <;> omega

/-- The step of a legal array write to an idle block, by the number of the written word (R45). -/
theorem step_writeBytes_idle {s : State} {name : ArrayName} {z : BitVec 2} {a v : Nat} {rest : List Event}
    (hb : s.status.busy = false) (hl : legalIndex name z a)
    (ha : s.agenda = writeEvent z (arrayBase name + a) v :: rest) :
    step s = .next (((s.withAgenda rest).respond .okay 0#32).writeArray name a (BitVec.ofNat 32 v) (2 ^ z.toNat)) :=
  (step_writeEvent ha (target_array hl)).trans (writeTarget_bytes_idle (by simpa using hb) ..)

/-- A weight is the low half of the word written to its place in KRAM (R20). -/
theorem kramWeight_writeArray (s : State) (k : Nat) (v : Word) :
    (s.writeArray .kram (2 * k) v 2).kramWeight k = v.extractLsb' 0 16 := by
  rw [State.kramWeight, State.byteAt_writeArray s (by decide), State.byteAt_writeArray s (by decide),
    if_pos ⟨rfl, by omega, by omega⟩, if_pos ⟨rfl, by omega, by omega⟩, Nat.sub_self, Nat.add_sub_cancel_left]
  exact BitVec.extractLsb'_append_extractLsb'_eq_extractLsb' rfl

/-- The half word LDW writes is the two's complement of its weight (R81). -/
theorem toInt_extractLsb'_floorMod {raw : Int} (hlo : -32768 ≤ raw) (hhi : raw ≤ 32767) :
    ((BitVec.ofNat 32 (floorMod raw 65536).toNat).extractLsb' 0 16).toInt = raw := by
  have h0 := floorMod_nonneg raw (n := 65536) (by omega)
  have h1 := floorMod_lt raw (n := 65536) (by omega)
  rw [floorMod_eq_emod] at h0 h1 ⊢
  rw [BitVec.toInt_eq_toNat_cond, extractLsb'_ofNat_toNat (by omega)]
  split <;> omega

/-- The byte of SRCMEM written by a one-byte access (R21). -/
theorem byteAt_writeArray_byte (s : State) (a : Nat) (v : Word) :
    (s.writeArray .srcmem a v 1).byteAt .srcmem a = v.extractLsb' 0 8 := by
  rw [State.byteAt_writeArray s (by decide), if_pos ⟨rfl, by omega, by omega⟩, Nat.sub_self, byteOf]

/-- Settles O5, by the step of the write each line is. -/
theorem operandLinesSetTheirOperands : Obligations.OperandLinesSetTheirOperands := by
  intro s rest hb
  refine ⟨fun w h hwf ha => ?_, fun kw kh hwf ha => ?_, fun ax ay hwf ha => ?_, fun k raw hwf ha => ?_,
    fun a v hwf ha => ?_⟩ <;> simp only [HostLine.wf, Bool.and_eq_true, decide_eq_true_eq] at hwf
  · obtain ⟨hw, hh⟩ := fields_ofNat_pair (n := 8) (lo := w - 1) (hi := h - 1) (.inl rfl) (by omega) (by omega)
    refine ⟨_, (step_writeEvent (g := .reg .imgdim) ha (by decide)).trans (regWrite_imgdim_idle (by simpa using hb) _),
      ?_, ?_⟩
    · rw [State.width, ImgDim.ofWord, hw]
      omega
    · rw [State.height, ImgDim.ofWord, hh]
      omega
  · exact ⟨_, (step_writeEvent (g := .reg .kdim) ha (by decide)).trans (regWrite_kdim_idle (by simpa using hb) _),
      fields_ofNat_pair (n := 4) (.inr rfl) (by omega) (by omega)⟩
  · exact ⟨_, (step_writeEvent (g := .reg .anchor) ha (by decide)).trans (regWrite_anchor_idle (by simpa using hb) _),
      fields_ofNat_pair (n := 4) (.inr rfl) (by omega) (by omega)⟩
  · obtain ⟨⟨hk, hlo⟩, hhi⟩ := hwf
    have hin : 2 * k + 2 ≤ 512 := by omega
    have hl : legalIndex .kram 1#2 (2 * k) := ⟨by decide, Nat.mul_mod_right 2 k, hin⟩
    refine ⟨_, step_writeBytes_idle hb hl ha, ?_⟩
    exact (congrArg BitVec.toInt (kramWeight_writeArray _ k _)).trans (toInt_extractLsb'_floorMod hlo hhi)
  · obtain ⟨hle, hv⟩ := hwf
    have hl : legalIndex .srcmem 0#2 a := ⟨by decide, Nat.mod_one a, Nat.succ_le_succ hle⟩
    refine ⟨_, step_writeBytes_idle hb hl ha, ?_⟩
    refine (congrArg BitVec.toNat (byteAt_writeArray_byte _ a _)).trans ?_
    rw [extractLsb'_ofNat_toNat (by omega)]
    omega

end Sys2Proof.Machine
end

section
/-! SUPPORT. Command fields that a run does not use (R77), the polling of WAIT (R80), and the statements about them. -/

namespace Sys2Proof.Machine

/-! ## Unused fields -/

/-- A state with another CMD latch. -/
def State.withCmd (s : State) (c : CmdLatch) : State := { s with cmd := c }

/-- Of the latch only BORDER changes a sample, and, under the constant policy, FILL (R77). -/
theorem sample_withCmd {s : State} {c : CmdLatch} (hborder : c.border = s.cmd.border)
    (hfill : s.cmd.border ≠ .constant ∨ c.fill = s.cmd.fill) (px py : Int) :
    (s.withCmd c).sample px py = s.sample px py := by
  rcases sample_cases s px py with ⟨idx, -, hbyte⟩ | ⟨hconst, -, hpx⟩
  · rw [hbyte (s.withCmd c) rfl hborder, hbyte s rfl rfl]
    rfl
  · rw [hpx (s.withCmd c) rfl hborder, hpx s rfl rfl]
    exact hfill.resolve_left (absurd hconst)

/-- The kernel descriptor is the latch's only in SEL and, for FILT, in FID (R77, R91). -/
theorem kernel_withCmd {s : State} {c : CmdLatch} (hsel : c.sel = s.cmd.sel)
    (hfid : s.cmd.sel = false ∨ c.fid = s.cmd.fid) (krom : Krom) :
    (s.withCmd c).kernel krom = s.kernel krom := by
  have hconv : (s.withCmd c).convKernel = s.convKernel := rfl
  have hcmd : (s.withCmd c).cmd = c := rfl
  rw [State.kernel, State.kernel, hconv, hcmd, hsel]
  rcases hfid with h | h
  · simp only [h, Bool.false_eq_true, if_false]
  · rw [h]

/-- Where the scan position goes does not depend on the latch (R100). -/
theorem advance_withCmd (s : State) (c : CmdLatch) : (s.withCmd c).advance = s.advance.withCmd c := by
  have hw : (s.withCmd c).width = s.width := rfl
  have hh : (s.withCmd c).height = s.height := rfl
  have hx : (s.withCmd c).ox = s.ox := rfl
  have hy : (s.withCmd c).oy = s.oy := rfl
  simp only [State.advance, hw, hh, hx, hy]
  split_ifs <;> rfl

/-- Where the pixels do not change with the latch, neither does anything else an engine step leaves (R100). -/
theorem enginePixel_withCmd {s : State} {c : CmdLatch} {kd : KernelEntry}
    (hout : ∀ x y, (s.withCmd c).out kd x y = s.out kd x y) :
    enginePixel kd (s.withCmd c) = (enginePixel kd s).withCmd c := by
  rw [enginePixel, hout, enginePixel, ← advance_withCmd]
  rfl

/-- An engine step whose kernel and pixels do not change with the latch does the same but for the latch (R100). -/
theorem engineStep_withCmd {s t : State} {c : CmdLatch}
    (hkernel : (s.withCmd c).kernel Config.krom = s.kernel Config.krom)
    (hout : ∀ kd x y, (s.withCmd c).out kd x y = s.out kd x y) (h : engineStep s = .next t) :
    engineStep (s.withCmd c) = .next (t.withCmd c) := by
  rcases engineStep_cases h with ⟨hb, rfl⟩ | ⟨hb, kd, hk, rfl⟩
  · exact engineStep_idle hb
  · rw [engineStep_busy (s := s.withCmd c) hb (hkernel.trans hk), enginePixel_withCmd (hout kd)]

/-- Settles O23: neither the samples nor, for CONV or with the FID kept, the kernel depend on the replaced fields. -/
theorem unusedFieldsDoNotMatter : Obligations.UnusedFieldsDoNotMatter := by
  rintro s s' fill fid rfl hfill
  have hout : ∀ kd x y, (s.withCmd { s.cmd with fill := fill, fid := fid }).out kd x y = s.out kd x y := fun kd =>
    out_congr_of_sample (sample_withCmd rfl hfill) rfl rfl rfl rfl fun _ _ _ _ => rfl
  refine ⟨hout, fun hfid => ?_⟩
  have hkernel := kernel_withCmd (c := { s.cmd with fill := fill, fid := fid }) rfl hfid
  exact ⟨hkernel, fun t h => engineStep_withCmd (hkernel _) hout h⟩

/-! ## WAIT -/

/-- A read of STATUS returns its word and leaves everything else but the response (R14, R44). -/
theorem hostRead_status (s : State) : hostRead 0x00008#18 2#2 s = s.respond .okay s.status.word :=
  hostRead_legal (g := .reg .status) (by decide) s

/-- The bit WAIT polls is BUSY (R14, R81). -/
theorem Status.word_and_one (f : Status) : f.word &&& 1#32 = 0#32 ↔ f.busy = false := by
  obtain ⟨busy, done, err, errcode⟩ := f
  revert busy done err errcode
  decide

/-- A turn of WAIT on an idle block ends it (R80). -/
theorem pollStep_wait_idle {s : State} (hb : s.status.busy = false) :
    pollStep 0x00008#18 1#32 0#32 s = s.respond .okay s.status.word := by
  rw [pollStep, hostRead_status]
  exact if_pos (s.status.word_and_one.mpr hb)

/-- A turn of WAIT on a busy block lets the engine step and polls again (R80; log 3). -/
theorem pollStep_wait_busy {s : State} (hb : s.status.busy = true) :
    pollStep 0x00008#18 1#32 0#32 s =
      (s.respond .okay s.status.word).withAgenda (.engine :: lineEvent .wait :: s.agenda) := by
  rw [pollStep, hostRead_status]
  exact if_neg (mt s.status.word_and_one.mp (by simp [hb]))

/-- WAIT on an idle block takes one step, which leaves STATUS (R80). -/
theorem step_wait_idle {s : State} (hb : s.status.busy = false) (ha : s.agenda = [lineEvent .wait]) :
    nextWith (step s) fun t => t.agenda = [] ∧ t.status = s.status := by
  have hstep : step s = .next (pollStep 0x00008#18 1#32 0#32 (s.withAgenda [])) := step_cons ha
  rw [hstep, pollStep_wait_idle (by simpa using hb)]
  exact ⟨_, rfl, rfl, rfl⟩

/-- The pixels a running engine has still to produce (R27, R100). -/
def State.remaining (s : State) : Nat := s.width * s.height - s.scanIndex

/-- A pixel completes the run, or leaves fewer to produce (R100). -/
theorem enginePixel_remaining {s : State} (kd : KernelEntry) (hi : s.Inv) (hb : s.status.busy = true) :
    ((enginePixel kd s).status.busy = false ∧ (enginePixel kd s).status.done = true) ∨
      ((enginePixel kd s).status.busy = true ∧ (enginePixel kd s).remaining < s.remaining) := by
  obtain ⟨hx, hy⟩ := hi.scanInside hb
  obtain ⟨hnext, hlast⟩ := enginePixel_scanIndex kd hx hy
  rcases Nat.lt_or_eq_of_le (scanIndex_lt hx hy) with hlt | heq
  · obtain ⟨hstatus, hscan, -, -⟩ := hnext hlt
    have hops := enginePixel_sameOperands s kd
    refine .inr ⟨by rw [hstatus, hb], ?_⟩
    rw [State.remaining, State.remaining, hops.width, hops.height, hscan]
    omega
  · rw [hlast heq]
    exact .inl ⟨rfl, rfl⟩

/-- A state in which the engine is due and WAIT polls again after it, with the response to WAIT's read of STATUS. -/
def State.polled (s : State) : State := (s.respond .okay s.status.word).withAgenda [.engine, lineEvent .wait]

/-- WAIT on a busy block reads STATUS and is put off until the engine has stepped (R80; log 3). -/
theorem step_wait_busy {s : State} (hb : s.status.busy = true) (ha : s.agenda = [lineEvent .wait]) :
    step s = .next s.polled :=
  (step_cons ha).trans (congrArg _ (pollStep_wait_busy (s := s.withAgenda []) hb))

/-- One round of WAIT on a busy block, a read and an engine step, completes the run or leaves fewer pixels to produce
(R80, R100; log 3). -/
theorem runSteps_wait_busy {s : State} (hi : s.Inv) (hb : s.status.busy = true) (ha : s.agenda = [lineEvent .wait]) :
    nextWith (runSteps 2 s) fun t => t.Inv ∧ t.agenda = [lineEvent .wait] ∧
      ((t.status.busy = false ∧ t.status.done = true) ∨ (t.status.busy = true ∧ t.remaining < s.remaining)) := by
  obtain ⟨kd, hk, -, -⟩ := checkCommand_eq_none (hi.checked hb)
  have hinv : (s.polled.withAgenda [lineEvent .wait]).Inv := ((hi.respond _ _).withAgenda _).withAgenda _
  have hengine : step s.polled = .next (enginePixel kd (s.polled.withAgenda [lineEvent .wait])) := by
    rw [step_cons (s := s.polled) rfl]
    exact engineStep_busy hb hk
  refine ⟨_, ?_, enginePixel_keeps_inv kd hinv hb, enginePixel_agenda _ kd, enginePixel_remaining kd hinv hb⟩
  rw [runSteps_succ 1 (step_wait_busy hb ha), runSteps_succ 0 hengine, runSteps_zero]

/-- WAIT on an idle block with DONE set ends in one step (R80). -/
theorem wait_ends_of_done {s : State} (hb : s.status.busy = false) (hd : s.status.done = true)
    (ha : s.agenda = [lineEvent .wait]) :
    nextWith (runSteps 1 s) fun t => t.agenda = [] ∧ t.status.busy = false ∧ t.status.done = true := by
  obtain ⟨t, hstep, hagenda, hstatus⟩ := step_wait_idle hb ha
  exact ⟨t, runSteps_succ 0 hstep, hagenda, by rw [hstatus, hb], by rw [hstatus, hd]⟩

/-- Settles O58, by induction on the pixels that remain: each round of WAIT produces one. -/
theorem waitEnds : Obligations.WaitEnds := by
  intro s hi hb ha
  induction hn : s.remaining using Nat.strong_induction_on generalizing s with
  | _ n ih =>
    obtain ⟨t, hround, hit, hat, ⟨hidle, hdone⟩ | ⟨hbusy, hfewer⟩⟩ := runSteps_wait_busy hi hb ha
    · exact ⟨2 + 1, by rw [runSteps_add 2 1 hround]; exact wait_ends_of_done hidle hdone hat⟩
    · obtain ⟨k, hk⟩ := ih _ (hn ▸ hfewer) t hit hbusy hat rfl
      exact ⟨2 + k, by rw [runSteps_add 2 k hround]; exact hk⟩

end Sys2Proof.Machine
end

section
/-! SUPPORT. The commands (R91 to R96, R114): when one starts its run, when it fails and with which error, what it leaves
unchanged, and the statements about completion, failure and frame that follow from them. -/

namespace Sys2Proof.Machine

/-! ## NOP -/

/-- Settles O7: the word's command is NOP, and the BUSY lock makes every other command like it. -/
theorem nopHasNoEffect : Obligations.NopHasNoEffect := by
  intro s v rest hgo
  have hnop := decodeWord_nop hgo
  refine ⟨hnop, rfl, fun ha => ?_, fun hb i => exec_busy i hb⟩
  rw [step_cons ha]
  exact (hostStep_cmdWrite v _).trans (by rw [hnop]; rfl)

/-! ## Commands that start their run -/

/-- A command on an idle block starts its run where its checks pass (R91, R96). -/
theorem submitTo_starts {krom : Krom} {c : CmdLatch} {s : State} (hb : s.status.busy = false)
    (hc : (s.latch c).checkCommand krom = none) : submitTo krom c s = s.running c := by
  rw [submitTo_idle hb, hc]

/-- A `CONV` command on an idle block starts its run where the anchor is a cell of the kernel (R92 to R94). -/
theorem exec_conv_starts {s : State} (b : Border) (fill fid : Byte) (hb : s.status.busy = false)
    (hx : s.anchor.ax.toNat < s.kdim.kw.toNat) (hy : s.anchor.ay.toNat < s.kdim.kh.toNat) :
    exec (convInstr b fill fid) s = .next (s.running (convLatch b fill fid)) := by
  have hcells : ¬(s.convKernel.kw.toNat = 0 ∨ s.convKernel.kh.toNat = 0) := by
    simp only [State.convKernel]; omega
  have hanchor : ¬(s.convKernel.kw.toNat ≤ s.convKernel.ax.toNat ∨ s.convKernel.kh.toNat ≤ s.convKernel.ay.toNat) := by
    simp only [State.convKernel]; omega
  rw [exec_conv, submitTo_starts hb]
  rw [checkCommand_some (kernel_conv ..), State.latch_convKernel, if_neg hcells, if_neg hanchor]

/-- Settles O8, by the same start for each border policy. -/
theorem convCommandsStartTheirRun : Obligations.ConvCommandsStartTheirRun := by
  intro s fill fid hb hx hy
  have hstart := fun b => exec_conv_starts b fill fid hb hx hy
  exact ⟨hstart .reflect, hstart .replicate, hstart .wrap, hstart .constant⟩

/-- A `FILT` command on an idle block starts its run where its identifier is registered (R144, R145). -/
theorem exec_filt_starts {s : State} (b : Border) (fill : Byte) {fid : Byte} (hb : s.status.busy = false)
    (hfid : fid.toNat < 8) : exec (filtInstr b fill fid) s = .next (s.running (filtLatch b fill fid)) := by
  rw [exec_filt, submitTo_starts hb]
  rw [checkCommand_filt, if_pos hfid]

/-- Settles O9, by the same start for each border policy. -/
theorem filtCommandsStartTheirRun : Obligations.FiltCommandsStartTheirRun := by
  intro s fill fid hb hfid
  have hstart := fun b => exec_filt_starts b fill hb hfid
  exact ⟨hstart .reflect, hstart .replicate, hstart .wrap, hstart .constant⟩

/-! ## Commands that fail -/

/-- The state of a failed command tells its error (R160, R165). -/
theorem State.failedWith_inj {s : State} {c : CmdLatch} {e e' : CommandError} :
    s.failedWith c e = s.failedWith c e' ↔ e = e' := by
  refine ⟨fun h => ?_, congrArg _⟩
  have hcode : e.code = e'.code := congrArg (·.status.errcode) h
  revert hcode
  cases e <;> cases e' <;> decide

/-- A command on an idle block fails with an error exactly when that is what its check finds (R91). -/
theorem submitTo_fails_iff {krom : Krom} {c : CmdLatch} {s : State} {e : CommandError} (hb : s.status.busy = false) :
    submitTo krom c s = s.failedWith c e ↔ (s.latch c).checkCommand krom = some e := by
  rw [submitTo_idle hb]
  cases (s.latch c).checkCommand krom with
  | some e' => simp only [State.failedWith_inj, Option.some.injEq]
  | none =>
    have hne : s.running c ≠ s.failedWith c e := fun h => Bool.noConfusion (congrArg (·.status.busy) h)
    simp only [hne, reduceCtorEq]

/-- A command fails with InvalidKernel exactly when its kernel has no cells (R93). -/
theorem submitTo_invalidKernel_iff {krom : Krom} {c : CmdLatch} {s : State} {kd : KernelEntry}
    (hb : s.status.busy = false) (hk : (s.latch c).kernel krom = some kd) :
    submitTo krom c s = s.failedWith c .invalidKernel ↔ kd.kw.toNat = 0 ∨ kd.kh.toNat = 0 := by
  rw [submitTo_fails_iff hb, checkCommand_some hk]
  split_ifs with hzero <;> simp [hzero]

/-- A command whose kernel has cells fails with InvalidAnchor exactly when none of them is the anchor (R94). -/
theorem submitTo_invalidAnchor_iff {krom : Krom} {c : CmdLatch} {s : State} {kd : KernelEntry}
    (hb : s.status.busy = false) (hk : (s.latch c).kernel krom = some kd) (hw : kd.kw.toNat ≠ 0)
    (hh : kd.kh.toNat ≠ 0) :
    submitTo krom c s = s.failedWith c .invalidAnchor ↔ kd.kw.toNat ≤ kd.ax.toNat ∨ kd.kh.toNat ≤ kd.ay.toNat := by
  rw [submitTo_fails_iff hb, checkCommand_some hk, if_neg (not_or.mpr ⟨hw, hh⟩)]
  split_ifs with houtside <;> simp [houtside]

/-- Settles O11: a CONV command's kernel descriptor is that of KDIM. -/
theorem invalidKernelExactlyZeroSize : Obligations.InvalidKernelExactlyZeroSize := by
  refine fun c s hb => ⟨fun b fill fid => ?_, fun krom kd hk => submitTo_invalidKernel_iff hb hk⟩
  rw [exec_conv, Host.Outcome.next.injEq]
  exact submitTo_invalidKernel_iff hb (kernel_conv ..)

/-- Settles O12: a CONV command's kernel descriptor is that of KDIM and ANCHOR. -/
theorem invalidAnchorExactlyOutside : Obligations.InvalidAnchorExactlyOutside := by
  refine fun c s hb => ⟨fun b fill fid hw hh => ?_, fun krom kd hk hw hh => submitTo_invalidAnchor_iff hb hk hw hh⟩
  rw [exec_conv, Host.Outcome.next.injEq]
  exact submitTo_invalidAnchor_iff hb (kernel_conv ..) hw hh

/-- Settles O14: the check looks at neither STATUS nor the pixels, so that a repeated command and one with another source
image meet the same error. -/
theorem failedCommandTouchesOnlyLatchAndStatus : Obligations.FailedCommandTouchesOnlyLatchAndStatus := by
  intro i s t hb hi h herr
  rcases exec_cases i with ⟨hnop, -⟩ | ⟨-, c, hexec⟩
  · exact absurd hnop hi
  rw [hexec, Host.Outcome.next.injEq] at h
  rcases submitTo_idle_cases Config.krom c hb with ⟨e, he⟩ | ⟨hr, -⟩
  · obtain rfl : t = s.failedWith c e := h.symm.trans he
    have hcheck : (s.latch c).checkCommand Config.krom = some e := (submitTo_fails_iff hb).mp he
    refine ⟨⟨c, e, rfl⟩, ?_, fun m => ?_⟩
    · exact (hexec _).trans (congrArg _ ((submitTo_fails_iff (s := s.failedWith c e) rfl).mpr hcheck))
    · exact (hexec _).trans (congrArg _ ((submitTo_fails_iff (s := { s with srcmem := m }) hb).mpr hcheck))
  · rw [← h, hr] at herr
    cases herr

/-! ## The frame of the commands -/

/-- Equal arrays hold equal bytes. -/
theorem State.byteAt_congr {s t : State} (hk : t.kram = s.kram) (hsrc : t.srcmem = s.srcmem)
    (hdst : t.dstmem = s.dstmem) (name : ArrayName) (a : Nat) : t.byteAt name a = s.byteAt name a := by
  cases name with
  | kram => rw [State.byteAt_kram, State.byteAt_kram, hk]
  | srcmem => rw [State.byteAt_srcmem, State.byteAt_srcmem, hsrc]
  | dstmem => rw [State.byteAt_dstmem, State.byteAt_dstmem, hdst]

/-- A submitted command that leaves the block idle leaves the scan position (R95). -/
theorem submitTo_scan {krom : Krom} {c : CmdLatch} {s : State} (h : (submitTo krom c s).status.busy = false) :
    (submitTo krom c s).ox = s.ox ∧ (submitTo krom c s).oy = s.oy := by
  cases hb : s.status.busy with
  | true =>
    rw [submitTo_busy hb]
    exact ⟨rfl, rfl⟩
  | false =>
    rcases submitTo_idle_cases krom c hb with ⟨e, he⟩ | ⟨hr, -⟩
    · rw [he]
      exact ⟨rfl, rfl⟩
    · rw [hr] at h
      cases h

/-- Settles O15: NOP leaves the state, and a submitted command has the frame of `submitTo`. -/
theorem commandFrame : Obligations.CommandFrame := by
  intro i s t h
  rcases exec_cases i with ⟨-, hexec⟩ | ⟨hi, c, hexec⟩ <;> rw [hexec, Host.Outcome.next.injEq] at h <;> subst h
  · exact ⟨rfl, rfl, rfl, rfl, fun _ _ => rfl, rfl, rfl, rfl, fun _ => ⟨rfl, rfl⟩, fun _ => rfl, fun _ => rfl⟩
  · obtain ⟨hctrl, himg, hkdim, hanchor, hkram, hsrc, hdst, hagenda, hresp, hdraws⟩ := submitTo_frame Config.krom c s
    exact ⟨hctrl, himg, hkdim, hanchor, State.byteAt_congr hkram hsrc hdst, hagenda, hresp, hdraws, submitTo_scan,
      submitTo_busy, fun hnop => absurd hnop hi⟩

end Sys2Proof.Machine
end

section
/-! SUPPORT. The engine (R99 to R108, R116): the pixel of a sum, the weighted sum under special kernels and images, one
engine step, a whole run, and the statements about them. -/

namespace Sys2Proof.Machine

/-! ## The pixel of a sum (R101, R102) -/

/-- A pixel is the nearest integer to the sum, the upper one on a tie, or the bound of 0 .. 255 it lies beyond (R101). -/
theorem pixelOf_cases (acc : Int) :
    (acc < 128 ∧ pixelOf acc = 0) ∨ (256 * 255 - 128 ≤ acc ∧ pixelOf acc = 255) ∨
      (0 ≤ pixelOf acc ∧ pixelOf acc ≤ 255 ∧ 256 * pixelOf acc - 128 ≤ acc ∧ acc < 256 * pixelOf acc + 128) := by
  have hp : pixelOf acc = clampi ((acc + 128) / 256) 0 255 := rfl
  unfold clampi at hp
  split_ifs at hp
  · exact .inl ⟨by omega, hp⟩
  · exact .inr (.inl ⟨by omega, hp⟩)
  · exact .inr (.inr (by omega))

/-- Settles O25, by the three ranges a sum can lie in. -/
theorem pixelRoundsTiesUpAndSaturates : Obligations.PixelRoundsTiesUpAndSaturates := by
  intro acc
  rcases pixelOf_cases acc with ⟨hlow, hp⟩ | ⟨hhigh, hp⟩ | ⟨h0, h255, hlo, hhi⟩ <;>
    exact ⟨fun n hn0 hn255 => by omega, by omega, by omega⟩

/-- Settles O26: below 0 and above 256 * 255 both give the bound, and between them neither clamps. -/
theorem clampThenRoundAgrees : Obligations.ClampThenRoundAgrees := by
  intro acc
  have hpixel := pixelOf_cases acc
  rw [floorDiv, clampi]
  split_ifs with hneg hlarge
  · omega
  · omega
  · omega

/-- A pixel is stored in a byte exactly (R99). -/
theorem State.out_toNat (s : State) (kd : KernelEntry) (x y : Int) :
    ((s.out kd x y).toNat : Int) = pixelOf (s.acc kd x y) := by
  obtain ⟨-, h0, h255⟩ := pixelRoundsTiesUpAndSaturates (s.acc kd x y)
  rw [State.out, BitVec.toNat_ofInt]
  omega

/-- A sample times weight 1.0 gives itself as the pixel (R101). -/
theorem pixelOf_unit (b : Byte) : pixelOf (256 * b.toNat) = b.toNat := by
  have hb := b.isLt
  rcases pixelOf_cases (256 * b.toNat) with ⟨hacc, hp⟩ | ⟨hacc, hp⟩ | ⟨-, -, hlo, hhi⟩ <;> omega

/-! ## The weighted sum (R99) -/

/-- A sum of terms that are all 0 is 0. -/
theorem sumBelow_eq_zero {n : Nat} {f : Nat → Int} (h : ∀ k, k < n → f k = 0) : sumBelow n f = 0 := by
  have hbounds := sumBelow_bounds (n := n) (f := f) (lo := 0) (hi := 0) fun k hk => by simp [h k hk]
  omega

/-- Moving the anchor right and down is moving the output position left and up (R107). -/
theorem acc_of_anchor_moved (s : State) {kd kd' : KernelEntry} (dx dy : Nat) (hw : kd'.kw = kd.kw)
    (hh : kd'.kh = kd.kh) (hraw : kd'.raw = kd.raw) (hx : kd'.ax.toNat = kd.ax.toNat + dx)
    (hy : kd'.ay.toNat = kd.ay.toNat + dy) (x y : Int) : s.acc kd' x y = s.acc kd (x - dx) (y - dy) := by
  simp only [State.acc, hw, hh, hraw, hx, hy]
  refine sumBelow_congr fun j _ => sumBelow_congr fun i _ => ?_
  rw [show x + (i : Int) - ((kd.ax.toNat + dx : Nat) : Int) = x - dx + i - kd.ax.toNat by push_cast; ring,
    show y + (j : Int) - ((kd.ay.toNat + dy : Nat) : Int) = y - dy + j - kd.ay.toNat by push_cast; ring]

/-- Settles O27, by moves of the anchor of (1, 0), (0, 1) and (1, 1). -/
theorem anchorMovesTheOutput : Obligations.AnchorMovesTheOutput := by
  intro s kd kd' x y hw hh hraw
  refine ⟨fun hx hy => ?_, fun hx hy => ?_, fun hx hy => ?_⟩
  · simpa using acc_of_anchor_moved s 1 0 hw hh hraw hx (by rw [hy]; rfl) x y
  · simpa using acc_of_anchor_moved s 0 1 hw hh hraw (by rw [hx]; rfl) hy x y
  · simpa using acc_of_anchor_moved s 1 1 hw hh hraw hx hy x y

/-- With one weight that is not 0, the sum is that weight times the sample under its cell (R103). -/
theorem acc_of_single_weight (s : State) {kd : KernelEntry} {i0 j0 : Nat} (hi : i0 < kd.kw.toNat)
    (hj : j0 < kd.kh.toNat)
    (hzero : ∀ i j, i < kd.kw.toNat → j < kd.kh.toNat → i ≠ i0 ∨ j ≠ j0 → kd.raw i j = 0#16) (x y : Int) :
    s.acc kd x y =
      (kd.raw i0 j0).toInt * ((s.sample (x + i0 - kd.ax.toNat) (y + j0 - kd.ay.toNat)).toNat : Int) := by
  rw [State.acc, sumBelow_single _ hj, sumBelow_single _ hi]
  · intro i hik hne
    simp [hzero i j0 hik hj (.inl hne)]
  · intro j hjk hne
    exact sumBelow_eq_zero fun i hik => by simp [hzero i j hik hjk (.inr hne)]

/-- Settles O29: the sum is 256 times the sample under the cell. -/
theorem unitWeightKernelShiftsTheImage : Obligations.UnitWeightKernelShiftsTheImage := by
  intro s kd i0 j0 x y hi hj hunit hzero
  have hweight : (kd.raw i0 j0).toInt = 256 := by rw [hunit]; rfl
  have hpixel := s.out_toNat kd x y
  rw [acc_of_single_weight s hi hj hzero, hweight, pixelOf_unit] at hpixel
  exact BitVec.eq_of_toNat_eq (by exact_mod_cast hpixel)

/-- In bounds a sample is the source pixel, whatever the policy (R97, R120). -/
theorem State.sample_inside (s : State) {x y : Nat} (hx : x < s.width) (hy : y < s.height) :
    s.sample x y = s.byteAt .srcmem (y * s.width + x) := by
  have hin : 0 ≤ (x : Int) ∧ (x : Int) < s.width ∧ 0 ≤ (y : Int) ∧ (y : Int) < s.height := by omega
  have hidx : ((y : Int) * s.width + x).toNat = y * s.width + x := by
    rw [show (y : Int) * s.width + x = ((y * s.width + x : Nat) : Int) by push_cast; ring, Int.toNat_natCast]
  rw [State.sample, if_pos hin, State.src, hidx]

/-- Settles O28: the one cell of the kernel lies on the output pixel. -/
theorem identityKernelCopiesTheImage : Obligations.IdentityKernelCopiesTheImage := by
  intro s kd x y hw hh hax hay hunit hx hy
  have hout := unitWeightKernelShiftsTheImage s kd 0 0 x y (by simp [hw]) (by simp [hh]) hunit fun i j hi hj hne => by
    simp only [hw, hh, BitVec.toNat_ofNat] at hi hj
    omega
  rw [hout, ← s.sample_inside hx hy]
  simp [hax, hay]

/-- Where every cell of the kernel lies on the same sample, the sum is the weight sum times it (R108). -/
theorem acc_of_equal_samples (s : State) (kd : KernelEntry) {c : Byte} {x y : Int}
    (h : ∀ i j : Nat, i < kd.kw.toNat → j < kd.kh.toNat →
      s.sample (x + i - kd.ax.toNat) (y + j - kd.ay.toNat) = c) :
    s.acc kd x y = kd.rawSum * (c.toNat : Int) := by
  rw [State.acc, KernelEntry.rawSum, ← sumBelow_mul_right]
  refine sumBelow_congr fun j hj => ?_
  rw [← sumBelow_mul_right]
  exact sumBelow_congr fun i hi => by rw [h i j hi hj]

/-- On a 1 x 1 image every sample but the constant's is its one pixel (R116). -/
theorem sample_onePixel {s : State} (hdim : s.imgdim = ⟨0#8, 0#8⟩) (hborder : s.cmd.border ≠ .constant) (px py : Int) :
    s.sample px py = s.byteAt .srcmem 0 := by
  have hpixels : s.width * s.height = 1 := by simp [State.width, State.height, hdim]
  rcases sample_cases s px py with ⟨idx, hlt, hbyte⟩ | ⟨hconst, -, -⟩
  · rw [hbyte s rfl rfl, show idx = 0 by omega]
  · exact absurd hconst hborder

/-- Settles O30: every sample is the one pixel of the image. -/
theorem onePixelImageUsesTheWeightSum : Obligations.OnePixelImageUsesTheWeightSum := by
  intro s kd x y hdim hborder
  rw [State.out_toNat, acc_of_equal_samples s kd fun _ _ _ _ => sample_onePixel hdim hborder _ _]
  rfl

/-! ## The width of the accumulator (R104) -/

/-- A weight times a sample, with the widths of both (R4). -/
theorem weight_mul_sample_bounds (w : Weight) (b : Byte) :
    -8355840 ≤ w.toInt * (b.toNat : Int) ∧ w.toInt * (b.toNat : Int) ≤ 8355585 := by
  have hlo := w.le_toInt
  have hhi := w.toInt_lt
  have hb : (b.toNat : Int) ≤ 255 := by have := b.isLt; omega
  norm_num at hlo hhi
  constructor <;> nlinarith

/-- A sum over at most 15 terms within bounds of opposite sign lies within 15 times each (R4 `KDIM_BITS`). -/
theorem sumBelow_nibble_bounds (n : Nibble) {f : Nat → Int} {lo hi : Int} (hlo : lo ≤ 0) (hhi : 0 ≤ hi)
    (h : ∀ k, k < n.toNat → lo ≤ f k ∧ f k ≤ hi) : 15 * lo ≤ sumBelow n.toNat f ∧ sumBelow n.toNat f ≤ 15 * hi := by
  obtain ⟨hge, hle⟩ := sumBelow_bounds h
  have hn : (n.toNat : Int) ≤ 15 := by have := n.isLt; omega
  constructor <;> nlinarith

/-- The sum of every pixel, with 15 x 15 cells at most (R104). -/
theorem acc_bounds (s : State) (kd : KernelEntry) (x y : Int) :
    -1880064000 ≤ s.acc kd x y ∧ s.acc kd x y ≤ 1880006625 :=
  sumBelow_nibble_bounds kd.kh (lo := -125337600) (hi := 125333775) (by decide) (by decide) fun _ _ =>
    sumBelow_nibble_bounds kd.kw (lo := -8355840) (hi := 8355585) (by decide) (by decide) fun _ _ =>
      weight_mul_sample_bounds _ _

/-- The arithmetic right shift of a 32-bit word by 8 is the floored division by 256 (R104). -/
theorem toInt_sshiftRight_eight (v : Word) : (v.sshiftRight 8).toInt = floorDiv v.toInt 256 := by
  rw [BitVec.toInt_sshiftRight, Int.shiftRight_eq_div_pow]
  rfl

/-- Settles O24, by the bounds of the sum. -/
theorem accumulatorFitsThirtyTwoBits : Obligations.AccumulatorFitsThirtyTwoBits := by
  intro s kd x y hax hay
  obtain ⟨hlo, hhi⟩ := acc_bounds s kd x.toNat y.toNat
  have hx := x.isLt
  have hy := y.isLt
  have hkw := kd.kw.isLt
  have hkh := kd.kh.isLt
  have hword : ∀ a : Int, -2 ^ 31 ≤ a → a < 2 ^ 31 → (BitVec.ofInt 32 a).toInt = a := fun a =>
    BitVec.toInt_ofInt_eq_self (w := 32) (by decide)
  have hsum : (BitVec.ofInt 32 (s.acc kd x.toNat y.toNat) + 128#32).toInt = s.acc kd x.toNat y.toNat + 128 := by
    rw [show (128#32 : Word) = BitVec.ofInt 32 128 from rfl, ← BitVec.ofInt_add]
    exact hword _ (by omega) (by omega)
  refine ⟨fun i hi => by omega, fun j hj => by omega, hlo, hhi, hword _ (by omega) (by omega), hsum, ?_⟩
  rw [toInt_sshiftRight_eight, hsum]

/-! ## One engine step (R100) -/

/-- The bytes of DSTMEM after a pixel: the pixel at the scan position, and every other as it was (R100). -/
theorem enginePixel_byteAt_dstmem (kd : KernelEntry) (s : State) (a : Nat) :
    (enginePixel kd s).byteAt .dstmem a =
      if a = s.scanIndex then s.out kd s.ox.toNat s.oy.toNat else s.byteAt .dstmem a := by
  rw [State.byteAt_dstmem, enginePixel_dstmem]
  split_ifs with h
  · rw [h, Memory.byteAt_setByte_same]
  · rw [Memory.byteAt_setByte_ne _ _ _ h, State.byteAt_dstmem]

/-- Settles O18, by what a pixel writes and where it leaves the scan position. -/
theorem engineStepWritesOnePixel : Obligations.EngineStepWritesOnePixel := by
  intro s kd hb hk hx hy
  refine ⟨_, engineStep_busy hb hk, ?_, fun a ha => ?_, enginePixel_sameOperands s kd, enginePixel_ctrl s kd,
    enginePixel_agenda s kd, enginePixel_resp s kd, enginePixel_draws s kd, ?_⟩
  · exact (enginePixel_byteAt_dstmem kd s _).trans (if_pos rfl)
  · exact (enginePixel_byteAt_dstmem kd s a).trans (if_neg ha)
  · have hpos := enginePixel_position s kd
    split_ifs at hpos ⊢
    · exact hpos
    · obtain ⟨hox, hoy, hstatus⟩ := hpos
      exact ⟨congrArg BitVec.toNat hox, hoy, hstatus⟩
    · exact hpos

/-! ## A whole run (R105) -/

/-- The pixel of an image at an index in raster order (R100). -/
def State.pixelAt (s : State) (kd : KernelEntry) (a : Nat) : Byte := s.out kd (a % s.width : Nat) (a / s.width : Nat)

theorem State.pixelAt_raster (s : State) (kd : KernelEntry) {x : Nat} (y : Nat) (hx : x < s.width) :
    s.pixelAt kd (y * s.width + x) = s.out kd x y := by
  rw [State.pixelAt, Nat.mul_add_mod_of_lt hx, Nat.mul_comm, Nat.mul_add_div s.width_pos, Nat.div_eq_of_lt hx,
    Nat.add_zero]

/-- The index of a pixel of the image is below `W * H` (R53). -/
theorem State.rasterIndex_lt (s : State) {x y : Nat} (hx : x < s.width) (hy : y < s.height) :
    y * s.width + x < s.width * s.height := by
  calc y * s.width + x < (y + 1) * s.width := by rw [Nat.add_mul]; omega
    _ ≤ s.height * s.width := Nat.mul_le_mul_right _ hy
    _ = s.width * s.height := Nat.mul_comm _ _

/-- What the rest of a run leaves: the pixels from the scan position on, and nothing else but the position and STATUS
changed (R100). -/
structure RestOfRun (kd : KernelEntry) (s t : State) : Prop where
  operands : SameOperands s t
  ctrl : t.ctrl = s.ctrl
  status : t.status = s.status.completed
  pixels : ∀ a, s.scanIndex ≤ a → a < s.width * s.height → t.byteAt .dstmem a = s.pixelAt kd a
  otherBytes : ∀ a, a < s.scanIndex ∨ s.width * s.height ≤ a → t.byteAt .dstmem a = s.byteAt .dstmem a

/-- Where the engine is in raster order, its pixel is that of the scan position (R100). -/
theorem State.pixelAt_scanIndex {s : State} (kd : KernelEntry) (hx : s.ox.toNat < s.width) :
    s.pixelAt kd s.scanIndex = s.out kd s.ox.toNat s.oy.toNat :=
  s.pixelAt_raster kd s.oy.toNat hx

theorem State.pixelAt_congr {s t : State} (h : SameOperands s t) (kd : KernelEntry) (a : Nat) :
    t.pixelAt kd a = s.pixelAt kd a := by
  rw [State.pixelAt, State.pixelAt, State.out_congr h, h.width]

/-- The last pixel of an image is the rest of its run (R100). -/
theorem RestOfRun.last {s : State} (kd : KernelEntry) (hx : s.ox.toNat < s.width) (hy : s.oy.toNat < s.height)
    (hlast : s.scanIndex + 1 = s.width * s.height) : RestOfRun kd s (enginePixel kd s) where
  operands := enginePixel_sameOperands s kd
  ctrl := enginePixel_ctrl s kd
  status := (enginePixel_scanIndex kd hx hy).2 hlast
  pixels a ha hlt := by
    obtain rfl : a = s.scanIndex := by omega
    rw [enginePixel_byteAt_dstmem, if_pos rfl, State.pixelAt_scanIndex kd hx]
  otherBytes a ha := by rw [enginePixel_byteAt_dstmem, if_neg (by omega)]

/-- A pixel and then the rest of the run is the rest of the run from that pixel on (R100). -/
theorem RestOfRun.cons {s t : State} {kd : KernelEntry} (hx : s.ox.toNat < s.width)
    (hlt : s.scanIndex < s.width * s.height) (hstatus : (enginePixel kd s).status = s.status)
    (hscan : (enginePixel kd s).scanIndex = s.scanIndex + 1) (h : RestOfRun kd (enginePixel kd s) t) :
    RestOfRun kd s t := by
  have hops := enginePixel_sameOperands s kd
  obtain ⟨hopst, hctrl, hstatust, hpixels, hothers⟩ := h
  rw [hscan, hops.width, hops.height] at hpixels hothers
  refine ⟨hops.trans hopst, hctrl.trans (enginePixel_ctrl s kd), hstatust.trans (by rw [hstatus]), fun a ha hlta => ?_,
    fun a ha => ?_⟩
  · rcases Nat.eq_or_lt_of_le ha with rfl | hafter
    · rw [hothers _ (.inl (Nat.lt_succ_self _)), enginePixel_byteAt_dstmem, if_pos rfl, State.pixelAt_scanIndex kd hx]
    · rw [hpixels a hafter hlta, State.pixelAt_congr hops]
  · rw [hothers a (by omega), enginePixel_byteAt_dstmem, if_neg (by omega)]

/-- A running engine with nothing due produces the rest of its run, one pixel a step, by induction on the pixels that
remain (R100, R105; log 2, log 12). -/
theorem runSteps_restOfRun {n : Nat} {s : State} {kd : KernelEntry} (hb : s.status.busy = true) (ha : s.agenda = [])
    (hk : s.kernel Config.krom = some kd) (hx : s.ox.toNat < s.width) (hy : s.oy.toNat < s.height)
    (hn : s.scanIndex + n = s.width * s.height) : nextWith (runSteps n s) (RestOfRun kd s) := by
  have hlt := scanIndex_lt hx hy
  induction n generalizing s with
  | zero => omega
  | succ n ih =>
    have hops := enginePixel_sameOperands s kd
    have hstep : step s = .next (enginePixel kd s) := (step_nil ha).trans (engineStep_busy hb hk)
    rw [runSteps_succ n hstep]
    by_cases hlast : n = 0
    · subst hlast
      exact ⟨_, runSteps_zero _, .last kd hx hy hn⟩
    · obtain ⟨hstatus, hscan, hx', hy'⟩ := (enginePixel_scanIndex kd hx hy).1 (by omega)
      rw [← hops.width] at hx'
      rw [← hops.height] at hy'
      have hn' : (enginePixel kd s).scanIndex + n = (enginePixel kd s).width * (enginePixel kd s).height := by
        rw [hscan, hops.width, hops.height]
        omega
      obtain ⟨t, hrun, hrest⟩ := ih (by rw [hstatus, hb]) ((enginePixel_agenda s kd).trans ha)
        ((State.kernel_congr hops).trans hk) hx' hy' hn' (scanIndex_lt hx' hy')
      exact ⟨t, hrun, hrest.cons hx hlt hstatus hscan⟩

/-- A command that leaves an idle block running is one whose checks passed (R91, R96). -/
theorem exec_starts_run {i : Instr} {s u : State} (hb : s.status.busy = false) (h : exec i s = .next u)
    (hbu : u.status.busy = true) : ∃ c kd, u = s.running c ∧ u.kernel Config.krom = some kd := by
  rcases exec_cases i with ⟨-, hexec⟩ | ⟨-, c, hexec⟩ <;> rw [hexec, Host.Outcome.next.injEq] at h
  · rw [← h, hb] at hbu
    cases hbu
  · rcases submitTo_idle_cases Config.krom c hb with ⟨e, he⟩ | ⟨hr, hc⟩
    · rw [← h, he] at hbu
      cases hbu
    · obtain ⟨kd, hk, -, -⟩ := checkCommand_eq_none hc
      obtain rfl := h.symm.trans hr
      exact ⟨c, kd, rfl, hk⟩

/-- Settles O19: the rest of a run that has just started is the whole image. -/
theorem acceptedCommandComputesTheImage : Obligations.AcceptedCommandComputesTheImage := by
  intro i s u hb ha h hbu
  obtain ⟨c, kd, rfl, hk⟩ := exec_starts_run hb h hbu
  have hstart : (s.running c).scanIndex = 0 := by simp [State.scanIndex, State.running]
  obtain ⟨t, hrun, hops, hctrl, hstatus, hpixels, hothers⟩ :=
    runSteps_restOfRun (n := s.width * s.height) hbu ha hk (s.running c).width_pos (s.running c).height_pos
      (by rw [hstart, Nat.zero_add]; rfl)
  refine ⟨kd, hk, t, hrun, fun x y hx hy => ?_, fun a hge => hothers a (.inr hge), hops, hops.srcmem, hops.kram,
    hops.imgdim, hops.kdim, hops.anchor, hctrl, ?_⟩
  · exact (hpixels _ (hstart ▸ Nat.zero_le _) (s.rasterIndex_lt hx hy)).trans ((s.running c).pixelAt_raster kd y hx)
  · have hword : (Status.completed ⟨true, false, false, 0#3⟩).word = 0x00000002#32 := by decide
    rw [hstatus]
    exact hword

end Sys2Proof.Machine
end

section
/-! SUPPORT. The border policy sampler: the laws of the coordinate maps, and what a sample is under each policy (R120 to
R127). -/

namespace Sys2Proof.Machine

/-! ## The coordinate maps (R122 to R124) -/

/-- The mirror between index n-1 and index n (R122): the one at the other edge, a period of 2n later. -/
theorem refl_mirror_far (p : Int) {n : Int} (h : 1 ≤ n) : refl (2 * n - 1 - p) n = refl p n := by
  calc refl (2 * n - 1 - p) n = refl (-1 - p + 2 * n) n := congrArg (refl · n) (by ring)
    _ = refl (-1 - p) n := refl_add_period _ n
    _ = refl p n := refl_mirror p h

/-- Settles O33: the mirrors at the two edges hold at every coordinate. -/
theorem reflectIsRepeatedMirroring : Obligations.ReflectIsRepeatedMirroring := fun p _ hn =>
  ⟨fun h0 h1 => refl_of_mem h0 (Int.le_sub_one_of_lt h1), fun _ => (refl_mirror p hn).symm,
    fun _ => (refl_mirror_far p hn).symm⟩

theorem clampi_eq_max_min (a : Int) {lo hi : Int} (h : lo ≤ hi) : clampi a lo hi = max lo (min a hi) := by
  unfold clampi
  split_ifs <;> omega

theorem clampi_mono {a b lo hi : Int} (h : lo ≤ hi) (hab : a ≤ b) : clampi a lo hi ≤ clampi b lo hi := by
  rw [clampi_eq_max_min a h, clampi_eq_max_min b h]
  exact max_le_max_left _ (min_le_min_right _ hab)

/-- Any move to the right from the low edge shows, where the range has a second coordinate (R127 (c)). -/
theorem clampi_add_ne_of_low {d lo hi : Int} (h : lo < hi) (hd : 0 < d) :
    clampi (lo + d) lo hi ≠ clampi lo lo hi := by
  rw [clampi_eq_max_min _ h.le, clampi_of_mem le_rfl h.le]
  omega

/-- Settles O34, by the laws of each map; for `n = 1` the range of the mapped coordinate has 0 alone. -/
theorem coordinateMapLaws : Obligations.CoordinateMapLaws := by
  refine ⟨fun p n hn => ?_, fun n d hn hd => ⟨0, clampi_add_ne_of_low (by omega) hd⟩,
    fun s px py hx0 hx1 hy0 hy1 => srcIndex_lt s hx0 hx1 hy0 hy1⟩
  have hlast : 0 ≤ n - 1 := by omega
  have hrefl := refl_mem p hn
  have hclampi := clampi_mem p hlast
  have hmod : 0 ≤ floorMod p n ∧ floorMod p n ≤ n - 1 :=
    ⟨floorMod_nonneg p hn, Int.le_sub_one_of_lt (floorMod_lt p hn)⟩
  exact ⟨hrefl, hclampi, hmod,
    fun h0 h1 => ⟨refl_of_mem h0 h1, clampi_of_mem h0 h1, floorMod_of_mem h0 (Int.lt_of_le_sub_one h1)⟩,
    refl_add_period p n, refl_mirror p hn, floorMod_add_self p n, fun q => clampi_mono hlast, fun _ => by omega⟩

/-! ## The sampler (R120, R121, R125) -/

/-- Settles O32: in bounds every map keeps the coordinates, and out of bounds the policy says what the sample is. -/
theorem samplerMapsEachAxis : Obligations.SamplerMapsEachAxis := by
  intro s px py
  by_cases hin : 0 ≤ px ∧ px < s.width ∧ 0 ≤ py ∧ py < s.height
  · have hsample : s.sample px py = s.src px py := if_pos hin
    obtain ⟨hx0, hx, hy0, hy⟩ := hin
    have hx1 := Int.le_sub_one_of_lt hx
    have hy1 := Int.le_sub_one_of_lt hy
    rw [hsample, refl_of_mem hx0 hx1, refl_of_mem hy0 hy1, clampi_of_mem hx0 hx1, clampi_of_mem hy0 hy1,
      floorMod_of_mem hx0 hx, floorMod_of_mem hy0 hy]
    exact ⟨fun _ => rfl, fun _ => rfl, fun _ => rfl, fun _ => ⟨fun hout => by omega, fun _ _ _ _ => rfl⟩⟩
  · rw [State.sample, if_neg hin]
    refine ⟨fun hb => ?reflect, fun hb => ?replicate, fun hb => ?wrap, fun hb => ⟨fun _ => ?constant, ?inside⟩⟩
    case reflect => rw [hb, State.sampleRfl]
    case replicate => rw [hb, State.sampleRep]
    case wrap => rw [hb, State.sampleWrp]
    case constant => rw [hb, State.sampleCst]
    case inside => exact fun hx0 hx hy0 hy => absurd ⟨hx0, hx, hy0, hy⟩ hin

end Sys2Proof.Machine
end

section
/-! SUPPORT. The registry (R140 to R143), flat images under a zero-sum kernel (R148), the `FILT` commands (R144 to R147),
and the statements about them. -/

namespace Sys2Proof.Machine

/-! ## The registry (R141, R143) -/

/-- Entry 1 of the registry, which is the draw where its weights sum to 0 and has zero weights otherwise, sums to 0
(R141 item 3; log 8). -/
theorem krom_laplacian_rawSum {e : KernelEntry} (h : Config.krom 1#8 = some e) : e.rawSum = 0 := by
  obtain rfl := Option.some.inj h
  by_cases hdraw : (KernelEntry.canonical (Config.kromWeight 1)).rawSum = 0
  · simp only [hdraw, ne_eq, not_true_eq_false, and_false, if_false]
    exact hdraw
  · simp only [ne_eq, hdraw, not_false_eq_true, and_self, if_true]
    rfl

/-- An entry of the registry is that of an identifier from 0 to 7, and is 3 x 3 with anchor (1, 1) (R141). -/
theorem krom_eq_some {f : Byte} {e : KernelEntry} (h : Config.krom f = some e) :
    f.toNat < 8 ∧ e.kw = 3#4 ∧ e.kh = 3#4 ∧ e.ax = 1#4 ∧ e.ay = 1#4 := by
  rcases Nat.lt_or_ge f.toNat 8 with hf | hf
  · obtain ⟨e', he', hshape⟩ := krom_registered hf
    obtain rfl : e' = e := Option.some.inj (he'.symm.trans h)
    exact ⟨hf, hshape⟩
  · rw [krom_unregistered hf] at h
    cases h

theorem krom_wf : Config.krom.wf where
  registered f := by
    by_cases hf : f.toNat < Config.nfilt <;> simp [Config.krom, hf]
  shape _ _ h := (krom_eq_some h).2
  zeroSum _ := krom_laplacian_rawSum

theorem kromRef_laplacian_rawSum : (Config.kromRef 1#8).map KernelEntry.rawSum = some 0 := by decide

/-- The table of the reference registry has a row for each of the identifiers 0 to 7 (R143). -/
theorem kromRef_isSome (f : Byte) : (Config.kromRef f).isSome = decide (f.toNat < Config.nfilt) := by
  have hlength : Config.kromRefTable.length = Config.nfilt := rfl
  rw [← hlength, Config.kromRef]
  split
  next row hrow => simp [(List.getElem?_eq_some_iff.mp hrow).1]
  next hnone => simpa using hnone

theorem kromRef_wf : Config.kromRef.wf where
  registered := kromRef_isSome
  shape f e h := by
    unfold Config.kromRef at h
    split at h
    · cases h
      exact ⟨rfl, rfl, rfl, rfl⟩
    · cases h
  zeroSum e h := by simpa [h] using kromRef_laplacian_rawSum

/-- Settles O35, each registry by itself. -/
theorem registriesAreWellFormed : Obligations.RegistriesAreWellFormed := ⟨krom_wf, kromRef_wf⟩

/-! ## Flat images (R148) -/

/-- On a flat image every sample is its value, except where the constant policy samples another FILL out of bounds
(R115, R148). -/
theorem sample_flat {s : State} {c : Byte} {px py : Int}
    (hflat : ∀ a, a < s.width * s.height → s.byteAt .srcmem a = c)
    (h : s.cmd.border ≠ .constant ∨ s.cmd.fill = c ∨ (0 ≤ px ∧ px < s.width ∧ 0 ≤ py ∧ py < s.height)) :
    s.sample px py = c := by
  rcases sample_cases s px py with ⟨idx, hlt, hbyte⟩ | ⟨hconst, hout, hfill⟩
  · rw [hbyte s rfl rfl, hflat idx hlt]
  · rw [hfill s rfl rfl]
    rcases h with hborder | hc | hin
    · exact absurd hconst hborder
    · exact hc
    · omega

/-- Settles O31: every sample under the kernel is the image's value, so that the sum is 0 times it. -/
theorem zeroSumKernelIsZeroOnFlatImage : Obligations.ZeroSumKernelIsZeroOnFlatImage := by
  intro s kd c x y hsum hflat hcase
  have hacc : s.acc kd x y = kd.rawSum * (c.toNat : Int) := by
    refine acc_of_equal_samples s kd fun i j hi hj => sample_flat hflat ?_
    exact hcase.imp_right (Or.imp_right fun hwindow => by omega)
  rw [State.out, hacc, hsum, Int.zero_mul]
  rfl

/-! ## Identifiers that are not registered (R145) -/

/-- What a `FILT` command on an idle block does is told by its identifier alone (R144, R145). -/
theorem submitTo_filt_idle {s : State} (b : Border) (fill fid : Byte) (hb : s.status.busy = false) :
    submitTo Config.krom (filtLatch b fill fid) s =
      if fid.toNat < 8 then s.running (filtLatch b fill fid)
      else s.failedWith (filtLatch b fill fid) .unknownFilter := by
  rw [submitTo_idle hb, checkCommand_filt]
  split_ifs <;> rfl

/-- Settles O10: a command either starts its run, with ERR cleared, or fails with UnknownFilter. -/
theorem unknownFilterExactlyUnregistered : Obligations.UnknownFilterExactlyUnregistered := by
  intro s b fill fid hb
  rw [exec_filt, submitTo_filt_idle b fill fid hb]
  by_cases hfid : fid.toNat < 8
  · rw [if_pos hfid]
    refine ⟨fun h => by omega, fun t ht => ?_⟩
    obtain rfl := Host.Outcome.next.inj ht
    exact ⟨⟨⟨nofun, fun h => by omega⟩, nofun⟩, rfl, rfl⟩
  · rw [if_neg hfid]
    refine ⟨fun _ => rfl, fun t ht => ?_⟩
    obtain rfl := Host.Outcome.next.inj ht
    exact ⟨⟨⟨fun _ => by omega, fun _ => rfl⟩, fun _ => rfl⟩, rfl, rfl⟩

/-! ## FILT and the operands of CONV (R147) -/

section withConvOperands

variable (s : State) (k : KDim) (a : Anchor) (m : Memory)

/-- A pixel of a given kernel descriptor reads none of the operands of `CONV` (R99). -/
theorem out_withConvOperands (kd : KernelEntry) (x y : Int) :
    (s.withConvOperands k a m).out kd x y = s.out kd x y := rfl

/-- Where the scan position goes does not depend on the operands of `CONV` (R100). -/
theorem advance_withConvOperands : (s.withConvOperands k a m).advance = s.advance.withConvOperands k a m := by
  have hw : (s.withConvOperands k a m).width = s.width := rfl
  have hh : (s.withConvOperands k a m).height = s.height := rfl
  have hx : (s.withConvOperands k a m).ox = s.ox := rfl
  have hy : (s.withConvOperands k a m).oy = s.oy := rfl
  simp only [State.advance, hw, hh, hx, hy]
  split_ifs <;> rfl

/-- With its kernel descriptor given, an engine step does the same whatever the operands of `CONV` are (R100). -/
theorem enginePixel_withConvOperands (kd : KernelEntry) :
    enginePixel kd (s.withConvOperands k a m) = (enginePixel kd s).withConvOperands k a m := by
  rw [enginePixel, out_withConvOperands, enginePixel, ← advance_withConvOperands]
  rfl

/-- The kernel descriptor of `FILT` is not read from the operands of `CONV` (R144). -/
theorem kernel_withConvOperands {s : State} (krom : Krom) (hsel : s.cmd.sel = true) :
    (s.withConvOperands k a m).kernel krom = s.kernel krom := by
  have hcmd : (s.withConvOperands k a m).cmd = s.cmd := rfl
  simp only [State.kernel, hcmd, hsel, if_true]

/-- The BUSY lock and the check of a `FILT` command do not read the operands of `CONV` (R147). -/
theorem submitTo_filt_withConvOperands (b : Border) (fill fid : Byte) :
    submitTo Config.krom (filtLatch b fill fid) (s.withConvOperands k a m) =
      (submitTo Config.krom (filtLatch b fill fid) s).withConvOperands k a m := by
  cases hb : s.status.busy with
  | true => rw [submitTo_busy hb, submitTo_busy (s := s.withConvOperands k a m) hb]
  | false =>
    rw [submitTo_filt_idle b fill fid hb, submitTo_filt_idle (s := s.withConvOperands k a m) b fill fid hb]
    split_ifs <;> rfl

/-- An engine step of a `FILT` run does the same whatever the operands of `CONV` are (R147). -/
theorem engineStep_withConvOperands {s t : State} (hsel : s.cmd.sel = true) (h : engineStep s = .next t) :
    engineStep (s.withConvOperands k a m) = .next (t.withConvOperands k a m) := by
  rcases engineStep_cases h with ⟨hb, rfl⟩ | ⟨hb, kd, hk, rfl⟩
  · exact engineStep_idle hb
  · rw [engineStep_busy (s := s.withConvOperands k a m) hb ((kernel_withConvOperands k a m _ hsel).trans hk),
      enginePixel_withConvOperands]

end withConvOperands

/-- Settles O37, by the command and the engine step that commute with the replacement, and the frame of each. -/
theorem filtLeavesConvOperandsAlone : Obligations.FiltLeavesConvOperandsAlone := by
  intro s t k a m
  refine ⟨fun b fill fid h => ?_, fun hsel h => ?_⟩
  · rw [exec_filt] at h
    obtain rfl := Host.Outcome.next.inj h
    obtain ⟨-, -, hkdim, hanchor, hkram, -⟩ := submitTo_frame Config.krom (filtLatch b fill fid) s
    exact ⟨by rw [exec_filt, submitTo_filt_withConvOperands], hkdim, hanchor, hkram⟩
  · have hops := engineStep_sameOperands h
    exact ⟨engineStep_withConvOperands k a m hsel h, hops.kdim, hops.anchor, hops.kram⟩

/-! ## FILT and CONV with the same kernel (R146) -/

/-- Two kernel descriptors have the same shape, the same anchor and the same weight in every cell. -/
structure SameCells (kd kd' : KernelEntry) : Prop where
  kw : kd'.kw = kd.kw
  kh : kd'.kh = kd.kh
  ax : kd'.ax = kd.ax
  ay : kd'.ay = kd.ay
  raw : ∀ i j, i < kd.kw.toNat → j < kd.kh.toNat → kd'.raw i j = kd.raw i j

/-- An engine step reads no more of a kernel descriptor than its cells (R99). -/
theorem enginePixel_congr_of_sameCells {kd kd' : KernelEntry} (h : SameCells kd kd') (s : State) :
    enginePixel kd' s = enginePixel kd s := by
  have hout := out_congr_of_sample (s := s) (t := s) (fun _ _ => rfl) h.kw h.kh h.ax h.ay h.raw
  simp only [enginePixel, hout]

/-- A state with a `CONV` latch and its operands in place of its own (R146). -/
def State.asConv (s : State) (k : KDim) (a : Anchor) (m : Memory) (c : CmdLatch) : State :=
  (s.withConvOperands k a m).withCmd c

/-- The latch `c` is one of `CONV` with the policy and FILL of the state's, and the operands give the cells of `e`, the
state's kernel descriptor (R146). -/
structure ConvOf (e : KernelEntry) (k : KDim) (a : Anchor) (m : Memory) (c : CmdLatch) (s : State) : Prop where
  kernel : s.kernel Config.krom = some e
  sel : c.sel = false
  border : c.border = s.cmd.border
  fill : c.fill = s.cmd.fill
  cells : SameCells e (s.withConvOperands k a m).convKernel

section asConv

variable {e : KernelEntry} {k : KDim} {a : Anchor} {m : Memory} {c : CmdLatch} {s t : State}

theorem ConvOf.congr (hc : ConvOf e k a m c s) (h : SameOperands s t) : ConvOf e k a m c t :=
  ⟨(State.kernel_congr h).trans hc.kernel, hc.sel, by rw [hc.border, h.cmd], by rw [hc.fill, h.cmd], hc.cells⟩

theorem kernel_asConv (krom : Krom) (hsel : c.sel = false) :
    (s.asConv k a m c).kernel krom = some (s.withConvOperands k a m).convKernel := by
  have hcmd : (s.asConv k a m c).cmd = c := rfl
  rw [State.kernel, hcmd, hsel]
  rfl

/-- An engine step does the same, but for the latch and the operands, as one of a `CONV` with the same policy, FILL and
cells (R146). -/
theorem engineStep_asConv (hc : ConvOf e k a m c s) (h : engineStep s = .next t) :
    engineStep (s.asConv k a m c) = .next (t.asConv k a m c) := by
  have hout : ∀ x y, (s.asConv k a m c).out e x y = (s.withConvOperands k a m).out e x y :=
    out_congr_of_sample (sample_withCmd hc.border (.inr hc.fill)) rfl rfl rfl rfl fun _ _ _ _ => rfl
  rcases engineStep_cases h with ⟨hb, rfl⟩ | ⟨hb, kd, hkd, rfl⟩
  · exact engineStep_idle hb
  · obtain rfl : e = kd := Option.some.inj (hc.kernel.symm.trans hkd)
    rw [engineStep_busy (s := s.asConv k a m c) hb (kernel_asConv _ hc.sel), enginePixel_congr_of_sameCells hc.cells,
      State.asConv, enginePixel_withCmd hout, enginePixel_withConvOperands, State.asConv]

theorem engineStep_agenda {s t : State} (h : engineStep s = .next t) : t.agenda = s.agenda := by
  rcases engineStep_cases h with ⟨-, rfl⟩ | ⟨-, kd, -, rfl⟩
  · rfl
  · exact enginePixel_agenda s kd

/-- With nothing due, the whole run does the same as that of such a `CONV`, by induction on the steps (R146; log 2). -/
theorem runSteps_asConv {n : Nat} (hc : ConvOf e k a m c s) (ha : s.agenda = []) (h : runSteps n s = .next t) :
    runSteps n (s.asConv k a m c) = .next (t.asConv k a m c) := by
  induction n generalizing s with
  | zero =>
    obtain rfl := Host.Outcome.next.inj h
    rfl
  | succ n ih =>
    rw [runSteps_succ_eq] at h
    cases hstep : step s with
    | next u =>
      rw [hstep] at h
      rw [step_nil ha] at hstep
      have hconv : step (s.asConv k a m c) = .next (u.asConv k a m c) :=
        (step_nil (s := s.asConv k a m c) ha).trans (engineStep_asConv hc hstep)
      rw [runSteps_succ n hconv]
      exact ih (hc.congr (engineStep_sameOperands hstep)) ((engineStep_agenda hstep).trans ha) h
    | fault r => simp [hstep] at h
    | refused r => simp [hstep] at h

end asConv

/-- A run that has just started ends after `W*H` steps, with DONE set and its latch as it was (R100, R105; log 2,
log 12). -/
theorem runSteps_running {s : State} {c : CmdLatch} {kd : KernelEntry} (ha : s.agenda = [])
    (hk : (s.running c).kernel Config.krom = some kd) :
    nextWith (runSteps (s.width * s.height) (s.running c)) fun t => t.status.done = true ∧ t.cmd = c := by
  have hstart : (s.running c).scanIndex = 0 := by simp [State.scanIndex, State.running]
  obtain ⟨t, hrun, hrest⟩ := runSteps_restOfRun (n := s.width * s.height) (s := s.running c) rfl ha hk
    (s.running c).width_pos (s.running c).height_pos (by rw [hstart, Nat.zero_add]; rfl)
  exact ⟨t, hrun, by rw [hrest.status]; rfl, hrest.operands.cmd⟩

/-- Settles O36: both commands start their run, and the two runs are the same step by step. -/
theorem filtEqualsConvOfItsEntry : Obligations.FiltEqualsConvOfItsEntry := by
  rintro b fill fid e m s s' hb ha he rfl hraw
  obtain ⟨hfid, hkw, hkh, hax, hay⟩ := krom_eq_some he
  have hx : e.ax.toNat < e.kw.toNat := by rw [hax, hkw]; decide
  have hy : e.ay.toNat < e.kh.toNat := by rw [hay, hkh]; decide
  have hfilt := exec_filt_starts b fill hb hfid
  have hconv := exec_conv_starts (s := s.withConvOperands ⟨e.kw, e.kh⟩ ⟨e.ax, e.ay⟩ m) b fill fid hb hx hy
  obtain ⟨t, hrun, hdone, hcmd⟩ := runSteps_running (c := filtLatch b fill fid) ha he
  have hsame : ConvOf e ⟨e.kw, e.kh⟩ ⟨e.ax, e.ay⟩ m (convLatch b fill fid) (s.running (filtLatch b fill fid)) :=
    ⟨he, rfl, rfl, rfl, rfl, rfl, rfl, rfl, hraw⟩
  have hrun' := runSteps_asConv hsame ha hrun
  exact ⟨_, _, hfilt, hconv, t, hrun, _, hrun', rfl, hdone, hcmd, rfl⟩

end Sys2Proof.Machine
end

section
/-! SUPPORT. The exceptions (R160 to R173): the one error a command reports, where an error comes from, when a run ends,
and that the machine is never stuck. -/

namespace Sys2Proof.Machine

/-! ## The error a command reports (R166) -/

/-- The kernel descriptor of a command with SEL = 1 is the registry's entry (R144). -/
theorem kernel_latch_of_sel {c : CmdLatch} (h : c.sel = true) (krom : Krom) (s : State) :
    (s.latch c).kernel krom = krom c.fid := by
  simp only [State.kernel, State.latch_cmd, h, if_true]

/-- The kernel descriptor of a command with SEL = 0 is that of KDIM, ANCHOR and KRAM (R92). -/
theorem kernel_latch_of_not_sel {c : CmdLatch} (h : c.sel = false) (krom : Krom) (s : State) :
    (s.latch c).kernel krom = some s.convKernel := by
  simp only [State.kernel, State.latch_cmd, h, Bool.false_eq_true, if_false, State.latch_convKernel]

/-- A command whose kernel descriptor is absent reports UnknownFilter (R145). -/
theorem submitTo_status_of_absent {krom : Krom} {c : CmdLatch} {s : State} (hb : s.status.busy = false)
    (hk : (s.latch c).kernel krom = none) : (submitTo krom c s).status = ⟨false, false, true, 3#3⟩ :=
  congrArg State.status ((submitTo_fails_iff hb).mpr (checkCommand_none hk))

/-- A command whose kernel has a zero dimension reports InvalidKernel, wherever its anchor is (R93). -/
theorem submitTo_status_of_zero {krom : Krom} {c : CmdLatch} {s : State} {kd : KernelEntry} (hb : s.status.busy = false)
    (hk : (s.latch c).kernel krom = some kd) (hzero : kd.kw = 0#4 ∨ kd.kh = 0#4) :
    (submitTo krom c s).status = ⟨false, false, true, 1#3⟩ :=
  congrArg State.status ((submitTo_invalidKernel_iff hb hk).mpr
    (hzero.imp (congrArg BitVec.toNat) (congrArg BitVec.toNat)))

/-- A command whose kernel has cells, but not at its anchor, reports InvalidAnchor (R94). -/
theorem submitTo_status_of_outside {krom : Krom} {c : CmdLatch} {s : State} {kd : KernelEntry}
    (hb : s.status.busy = false) (hk : (s.latch c).kernel krom = some kd) (hw : kd.kw ≠ 0#4) (hh : kd.kh ≠ 0#4)
    (houtside : kd.kw ≤ kd.ax ∨ kd.kh ≤ kd.ay) : (submitTo krom c s).status = ⟨false, false, true, 2#3⟩ :=
  congrArg State.status ((submitTo_invalidAnchor_iff hb hk (BitVec.toNat_ne_iff_ne.mpr hw)
    (BitVec.toNat_ne_iff_ne.mpr hh)).mpr houtside)

/-- Settles O13, by the kernel descriptor of the command: the registry's entry, or that of KDIM and ANCHOR. -/
theorem errorPriority : Obligations.ErrorPriority := by
  intro krom c s k a hb
  have hfilt (hsel : c.sel = true) := kernel_latch_of_sel hsel krom { s with kdim := k, anchor := a }
  have hconv (hsel : c.sel = false) := kernel_latch_of_not_sel hsel krom { s with kdim := k, anchor := a }
  refine ⟨fun hsel habsent => ?_, fun hsel hzero => ?_, fun e hsel he hzero => ?_, fun e hsel he hw hh hout => ?_,
    fun hsel hw hh hout => ?_⟩
  · exact submitTo_status_of_absent hb ((hfilt hsel).trans habsent)
  · exact submitTo_status_of_zero hb (hconv hsel) hzero
  · exact submitTo_status_of_zero hb ((hfilt hsel).trans he) hzero
  · exact submitTo_status_of_outside hb ((hfilt hsel).trans he) hw hh hout
  · exact submitTo_status_of_outside hb (hconv hsel) hw hh hout

/-! ## Where an error comes from (R164) -/

/-- Only the acceptance of a command can raise an error: any other step that leaves ERR set found it set, with the same
code. -/
theorem step_err_of_not_accepting {s t : State} (h : step s = .next t) (hacc : ¬s.accepting)
    (herr : t.status.err = true) : s.status.err = true ∧ t.status.errcode = s.status.errcode := by
  rcases step_status_cases h with hs | ⟨-, -, hs⟩ | ⟨v, rest, -, hs⟩ | ⟨haccepts, -⟩ | ⟨-, hs⟩
  · exact ⟨hs ▸ herr, by rw [hs]⟩
  · rw [hs] at herr ⊢
    exact ⟨herr, rfl⟩
  · obtain ⟨-, -, he, hcode⟩ := s.status.writeOneToClear_fields v
    rw [hs] at herr ⊢
    rw [he, Bool.and_eq_true, Bool.not_eq_true'] at herr
    obtain ⟨hset, hbit⟩ := herr
    exact ⟨hset, by rw [hcode, hbit, if_neg Bool.false_ne_true]⟩
  · exact absurd haccepts hacc
  · rw [hs] at herr
    cases herr

/-- An accepted command that leaves ERR set leaves BUSY and DONE clear (R165). -/
theorem step_accepting_err {s t : State} (hacc : s.accepting) (h : step s = .next t) (herr : t.status.err = true) :
    t.status.busy = false ∧ t.status.done = false := by
  obtain ⟨hb, v, rest, ha, hgo⟩ := hacc
  obtain ⟨b, -, hexec⟩ := exec_decodeWord hgo
  have hstep : step s = exec (decodeWord v) ((s.withAgenda rest).respond .okay 0#32) :=
    (step_cons ha).trans (hostStep_cmdWrite v _)
  rw [hstep, hexec, Host.Outcome.next.injEq] at h
  subst h
  rcases submitTo_idle_cases Config.krom ⟨selField v, b, fillField v, fidField v⟩
    (s := (s.withAgenda rest).respond .okay 0#32) hb with ⟨e, he⟩ | ⟨hr, -⟩
  · rw [he]
    exact ⟨rfl, rfl⟩
  · rw [hr] at herr
    cases herr

/-- Settles O17: every step that accepts no command keeps the error it leaves. -/
theorem errorsOnlyAtAcceptance : Obligations.ErrorsOnlyAtAcceptance := by
  intro s t h herr hraised
  by_cases hacc : s.accepting
  · obtain ⟨hidle, hdone⟩ := step_accepting_err hacc h herr
    obtain ⟨hb, v, rest, ha, hgo⟩ := hacc
    exact ⟨v, rest, ha, hgo, hb, hidle, hdone⟩
  · obtain ⟨hset, hcode⟩ := step_err_of_not_accepting h hacc herr
    rcases hraised with hclear | hchanged
    · rw [hset] at hclear
      cases hclear
    · exact absurd hcode hchanged

/-! ## The end of a run (R172) -/

/-- A pixel before the last one leaves the engine busy, with one pixel less to produce (R100). -/
theorem enginePixel_busy {s : State} (kd : KernelEntry) (hi : s.Inv) (hb : s.status.busy = true)
    (hmore : 1 < s.remaining) :
    (enginePixel kd s).status.busy = true ∧ (enginePixel kd s).remaining = s.remaining - 1 := by
  obtain ⟨hx, hy⟩ := hi.scanInside hb
  have hops := enginePixel_sameOperands s kd
  simp only [State.remaining, hops.width, hops.height] at hmore ⊢
  obtain ⟨hstatus, hscan, -, -⟩ := (enginePixel_scanIndex kd hx hy).1 (by omega)
  exact ⟨by rw [hstatus, hb], by rw [hscan, Nat.sub_add_eq]⟩

/-- With nothing due, a running engine is busy after any number of steps below the remaining pixels, by induction
on the steps (R100; log 2, log 12). -/
theorem runSteps_busy {j : Nat} {s : State} (hi : s.Inv) (hb : s.status.busy = true) (ha : s.agenda = [])
    (hj : j < s.remaining) : nextWith (runSteps j s) fun t => t.status.busy = true := by
  induction j generalizing s with
  | zero => exact ⟨s, runSteps_zero s, hb⟩
  | succ j ih =>
    obtain ⟨kd, hk, -, -⟩ := checkCommand_eq_none (hi.checked hb)
    obtain ⟨hb', hfewer⟩ := enginePixel_busy kd hi hb (by omega)
    rw [runSteps_succ j ((step_nil ha).trans (engineStep_busy hb hk))]
    exact ih (enginePixel_keeps_inv kd hi hb) hb' ((enginePixel_agenda s kd).trans ha) (by omega)

/-- Settles O20: the engine stays busy below the number of remaining pixels, and the rest of its run is that many
steps. -/
theorem runEndsAfterItsRemainingPixels : Obligations.RunEndsAfterItsRemainingPixels := by
  intro s hi hb ha
  obtain ⟨hx, hy⟩ := hi.scanInside hb
  obtain ⟨kd, hk, -, -⟩ := checkCommand_eq_none (hi.checked hb)
  have hlt := scanIndex_lt hx hy
  obtain ⟨t, hrun, hrest⟩ := runSteps_restOfRun hb ha hk hx hy (Nat.add_sub_of_le hlt.le)
  exact ⟨fun j hj => runSteps_busy hi hb ha hj, ⟨t, hrun, by simp [hrest.status, Status.completed]⟩, hlt⟩

/-! ## No stuck state (R172) -/

/-- The engine's step answers a next state wherever the invariant holds: a running engine has a kernel (R91). -/
theorem engineStep_next {s : State} (hi : s.Inv) : ∃ t, engineStep s = .next t := by
  cases hb : s.status.busy with
  | false => exact ⟨s, engineStep_idle hb⟩
  | true =>
    obtain ⟨kd, hk, -, -⟩ := checkCommand_eq_none (hi.checked hb)
    exact ⟨_, engineStep_busy hb hk⟩

/-- A host write answers a next state that holds its response (R40). -/
theorem hostWrite_responds (addr : Addr) (size : BitVec 2) (v : Word) (s : State) :
    nextWith (hostWrite addr size v s) fun t => t.resp.isSome = true := by
  cases hg : target addr size with
  | none => exact ⟨_, hostWrite_illegal hg v s, rfl⟩
  | some g =>
    obtain ⟨t, ht⟩ := hostWrite_next addr size v s
    exact ⟨t, ht, Option.isSome_of_eq_some (hostWrite_legal_resp hg ht)⟩

/-- After a host read its response is there (R40). -/
theorem hostRead_responds (addr : Addr) (size : BitVec 2) (s : State) : (hostRead addr size s).resp.isSome = true := by
  cases hg : target addr size with
  | none => rw [hostRead_illegal hg]; rfl
  | some g => rw [hostRead_legal hg]; rfl

/-- Every host transaction answers a next state that holds its response (R40). -/
theorem hostStep_responds (q : Transaction) (s : State) :
    nextWith (hostStep q s) fun t => t.resp.isSome = true := by
  unfold hostStep
  split
  · exact hostWrite_responds q.addr q.size q.wdata s
  · exact ⟨_, rfl, hostRead_responds q.addr q.size s⟩

/-- Settles O54, by the event that is due: only the engine needs the invariant, and only a transaction a response. -/
theorem noStuckState : Obligations.NoStuckState := by
  intro s hi
  cases ha : s.agenda with
  | nil =>
    obtain ⟨t, ht⟩ := engineStep_next hi
    exact ⟨t, (step_nil ha).trans ht, nofun⟩
  | cons e rest =>
    rw [step_cons ha]
    cases e with
    | host q =>
      obtain ⟨t, ht, hresp⟩ := hostStep_responds q (s.withAgenda rest)
      exact ⟨t, ht, fun _ _ _ => hresp⟩
    | engine =>
      obtain ⟨t, ht⟩ := engineStep_next (hi.withAgenda rest)
      exact ⟨t, ht, nofun⟩
    | poll addr mask value => exact ⟨_, rfl, nofun⟩
    | reset => exact ⟨_, rfl, nofun⟩
    | powerOn => exact ⟨_, rfl, nofun⟩

end Sys2Proof.Machine
end

section
/-! SUPPORT. Reset and power-on (R30, R190, R191). -/

namespace Sys2Proof.Machine

/-! ## What reset leaves -/

/-- Every register reads 0 at reset, and no interrupt is raised (R30). -/
theorem State.reset_registers_zero :
    State.reset.cmd.word = 0#32 ∧ State.reset.status.word = 0#32 ∧ State.reset.ctrl.word = 0#32 ∧
      State.reset.imgdim.word = 0#32 ∧ State.reset.kdim.word = 0#32 ∧ State.reset.anchor.word = 0#32 ∧
      State.reset.irq = false := by decide

/-- A reset keeps every byte of DSTMEM but the pixels of a run it cuts (R30, U4). -/
theorem applyReset_dstmem_kept {s : State} {a : Nat} (h : s.status.busy = false ∨ s.width * s.height ≤ a) :
    s.applyReset.byteAt .dstmem a = s.byteAt .dstmem a := by
  by_contra hne
  obtain ⟨hb, hlt⟩ := applyReset_dstmem_change hne
  rcases h with hidle | hge
  · simp [hb] at hidle
  · omega

/-- Settles O50: both steps take the registers from the reset state, and a reset takes the arrays from the state it
meets. -/
theorem resetStepLeavesResetRegisters : Obligations.ResetStepLeavesResetRegisters := by
  intro s rest hreset
  obtain ⟨hcmd, hstatus, hctrl, himgdim, hkdim, hanchor, hirq⟩ := State.reset_registers_zero
  rcases hreset with ha | ha
  · exact ⟨(s.withAgenda rest).applyReset, step_cons ha, hcmd, hstatus, hctrl, himgdim, hkdim, hanchor, hirq, rfl,
      fun _ => ⟨fun _ => ⟨rfl, rfl⟩, fun _ hkept => applyReset_dstmem_kept (s := s.withAgenda rest) hkept⟩⟩
  · exact ⟨(s.withAgenda rest).applyPowerOn, step_cons ha, hcmd, hstatus, hctrl, himgdim, hkdim, hanchor, hirq, rfl,
      fun hne => by simp [ha] at hne⟩

/-- Settles O51: the kernel of KDIM has no cells, a registered filter needs none of it, and the engine is idle. -/
theorem stateAfterReset : Obligations.StateAfterReset := by
  obtain ⟨-, hstatus, -, -, hkdim, -, -⟩ := State.reset_registers_zero
  have hidle : State.reset.status.busy = false := rfl
  refine ⟨hstatus, rfl, rfl, rfl, hkdim, (step_nil rfl).trans (engineStep_idle hidle), fun b fill fid => ⟨?_, ?_⟩⟩
  · rw [exec_conv, (submitTo_invalidKernel_iff hidle (kernel_conv ..)).mpr (.inl rfl)]
  · exact exec_filt_starts b fill hidle

end Sys2Proof.Machine
end
